-- ==== Sys2Proof/Word.lean ====
section
/-! DEFINITION. The memory cell: a signed integer, kept as an integer because nothing in the
machine can see its bits (spec/20_memory.md R43, spec/00_scope.md R8), and the range a `W`-bit cell has. A cell's value has the type `Int`; that it fits `W` bits is `IsCell`, an invariant of the state (log 1). -/

namespace Sys2Proof

/-- `INT_MIN = -2^(W-1)` (R8). -/
def intMin (W : Nat) : Int := -((2 ^ (W - 1) : Nat) : Int)

/-- `INT_MAX = 2^(W-1) - 1` (R8). -/
def intMax (W : Nat) : Int := ((2 ^ (W - 1) : Nat) : Int) - 1

/-- `v` is a `W`-bit two's-complement value (R8). -/
abbrev IsCell (W : Nat) (v : Int) : Prop := intMin W ≤ v ∧ v ≤ intMax W

/-- The three cells of an instruction: opcode, level, modifier (R25, R60). -/
structure Triplet where
  op : Int
  l : Int
  m : Int
deriving DecidableEq, Repr

/-- Every field of the triplet fits a `W`-bit cell. -/
abbrev Triplet.IsCells (W : Nat) (t : Triplet) : Prop := IsCell W t.op ∧ IsCell W t.l ∧ IsCell W t.m

end Sys2Proof
end

