-- ==== Sys2Proof/Syntax.lean ====
section
/-! DEFINITION. The instructions of spec/30_encoding.md R66, one constructor per row of spec/opcode_table.json.
`l` is the level cell and `m` the modifier cell; a constructor without `m` has its modifier fixed as the selector. -/

namespace Sys2Proof

inductive Instr where
  /-- `1 L M`: push the literal `M` (R80). -/
  | lit (l m : Int)
  /-- `2 L 0`: return (R121). -/
  | rtn (l : Int)
  /-- `2 L 1`: second + top (R91). -/
  | add (l : Int)
  /-- `2 L 2`: second − top (R92). -/
  | sub (l : Int)
  /-- `2 L 3`: second × top (R93). -/
  | mul (l : Int)
  /-- `2 L 4`: second ÷ top, toward zero (R94). -/
  | div (l : Int)
  /-- `2 L 5`: second = top (R95). -/
  | eql (l : Int)
  /-- `2 L 6`: second ≠ top (R96). -/
  | neq (l : Int)
  /-- `2 L 7`: second < top (R97). -/
  | lss (l : Int)
  /-- `2 L 8`: second ≤ top (R98). -/
  | leq (l : Int)
  /-- `2 L 9`: second > top (R99). -/
  | gtr (l : Int)
  /-- `2 L 10`: second ≥ top (R100). -/
  | geq (l : Int)
  /-- `2 L M`, `M` not in 0..10: a diagnostic and no other effect (R69, R101). -/
  | oprInvalid (l m : Int)
  /-- `3 L M`: push `Mem[base(BP, L) − M]` (R111). -/
  | lod (l m : Int)
  /-- `4 L M`: pop into `Mem[base(BP, L) − M]` (R112). -/
  | sto (l m : Int)
  /-- `5 L M`: call the procedure at `target(M)` (R120). -/
  | cal (l m : Int)
  /-- `6 L M`: `SP <- SP − M` (R81). -/
  | inc (l m : Int)
  /-- `7 L M`: jump to `target(M)` (R122). -/
  | jmp (l m : Int)
  /-- `8 L M`: pop, jump to `target(M)` if the popped value is 0 (R123). -/
  | jpc (l m : Int)
  /-- `9 L 1`: pop and output (R135). -/
  | sysPrint (l : Int)
  /-- `9 L 2`: input and push (R136). -/
  | sysRead (l : Int)
  /-- `9 L 3`: halt (R137). -/
  | sysHalt (l : Int)
  /-- `9 L M`, `M` not in 1..3: a diagnostic and no other effect (R69, R138). -/
  | sysInvalid (l m : Int)
deriving DecidableEq, Repr

end Sys2Proof
end

