-- ==== Sys2Proof/WellFormed.lean ====
section
/-! DEFINITION. Which instructions exist as three `W`-bit cells: every field fits a cell (spec/30_encoding.md R60, R61), and
the modifier of a reserved family is none of the defined selectors (R69). A negative level is no check here: it is encodable,
and LOD, STO and CAL trap on it when they run (R70). -/

namespace Sys2Proof

/-- The modifier selects no OPR sub-operation (R69). -/
abbrev IsReservedOpr (m : Int) : Prop := m < 0 ∨ 10 < m

/-- The modifier selects no system call (R69). -/
abbrev IsReservedSys (m : Int) : Prop := m < 1 ∨ 3 < m

/-- The instruction is three `W`-bit cells. Below `W = 5` the larger opcodes and selectors do not fit a cell (log 20). -/
def WellFormed (W : Nat) : Instr → Bool
  | .lit l m => decide (IsCell W 1 ∧ IsCell W l ∧ IsCell W m)
  | .rtn l => decide (IsCell W 2 ∧ IsCell W l ∧ IsCell W 0)
  | .add l => decide (IsCell W 2 ∧ IsCell W l ∧ IsCell W 1)
  | .sub l => decide (IsCell W 2 ∧ IsCell W l ∧ IsCell W 2)
  | .mul l => decide (IsCell W 2 ∧ IsCell W l ∧ IsCell W 3)
  | .div l => decide (IsCell W 2 ∧ IsCell W l ∧ IsCell W 4)
  | .eql l => decide (IsCell W 2 ∧ IsCell W l ∧ IsCell W 5)
  | .neq l => decide (IsCell W 2 ∧ IsCell W l ∧ IsCell W 6)
  | .lss l => decide (IsCell W 2 ∧ IsCell W l ∧ IsCell W 7)
  | .leq l => decide (IsCell W 2 ∧ IsCell W l ∧ IsCell W 8)
  | .gtr l => decide (IsCell W 2 ∧ IsCell W l ∧ IsCell W 9)
  | .geq l => decide (IsCell W 2 ∧ IsCell W l ∧ IsCell W 10)
  | .oprInvalid l m => decide (IsCell W 2 ∧ IsCell W l ∧ IsCell W m ∧ IsReservedOpr m)
  | .lod l m => decide (IsCell W 3 ∧ IsCell W l ∧ IsCell W m)
  | .sto l m => decide (IsCell W 4 ∧ IsCell W l ∧ IsCell W m)
  | .cal l m => decide (IsCell W 5 ∧ IsCell W l ∧ IsCell W m)
  | .inc l m => decide (IsCell W 6 ∧ IsCell W l ∧ IsCell W m)
  | .jmp l m => decide (IsCell W 7 ∧ IsCell W l ∧ IsCell W m)
  | .jpc l m => decide (IsCell W 8 ∧ IsCell W l ∧ IsCell W m)
  | .sysPrint l => decide (IsCell W 9 ∧ IsCell W l ∧ IsCell W 1)
  | .sysRead l => decide (IsCell W 9 ∧ IsCell W l ∧ IsCell W 2)
  | .sysHalt l => decide (IsCell W 9 ∧ IsCell W l ∧ IsCell W 3)
  | .sysInvalid l m => decide (IsCell W 9 ∧ IsCell W l ∧ IsCell W m ∧ IsReservedSys m)

end Sys2Proof
end

