-- ==== Sys2Proof/Decode.lean ====
section
/-! DEFINITION. Decoding and encoding (spec/30_encoding.md R60 to R71): from any three cells an instruction or a named
refusal; back to the three cells; and the packed word of spec/opcode_table.json (R67), with the table's rows themselves. -/

namespace Sys2Proof

/-- `wrap_W(x)`: the value of the cell range congruent to `x` modulo `2^W` (R8). -/
def wrap (W : Nat) (x : Int) : Int := Int.bmod x (2 ^ W)

/-- Why three cells are no instruction: the one reason is an opcode cell outside 1..9 (R68). -/
inductive DecodeError where
  | illegalOpcode (op : Int)
deriving DecidableEq, Repr

/-- The second dispatch of opcode 2, on the modifier (R63, R66, R69). -/
def decodeOpr (l m : Int) : Instr :=
  if m = 0 then .rtn l
  else if m = 1 then .add l
  else if m = 2 then .sub l
  else if m = 3 then .mul l
  else if m = 4 then .div l
  else if m = 5 then .eql l
  else if m = 6 then .neq l
  else if m = 7 then .lss l
  else if m = 8 then .leq l
  else if m = 9 then .gtr l
  else if m = 10 then .geq l
  else .oprInvalid l m

/-- The second dispatch of opcode 9, on the modifier (R63, R66, R69). -/
def decodeSys (l m : Int) : Instr :=
  if m = 1 then .sysPrint l
  else if m = 2 then .sysRead l
  else if m = 3 then .sysHalt l
  else .sysInvalid l m

/-- Decoding compares whole signed cell values and is total (R63). -/
def decode (t : Triplet) : Except DecodeError Instr :=
  if t.op = 1 then .ok (.lit t.l t.m)
  else if t.op = 2 then .ok (decodeOpr t.l t.m)
  else if t.op = 3 then .ok (.lod t.l t.m)
  else if t.op = 4 then .ok (.sto t.l t.m)
  else if t.op = 5 then .ok (.cal t.l t.m)
  else if t.op = 6 then .ok (.inc t.l t.m)
  else if t.op = 7 then .ok (.jmp t.l t.m)
  else if t.op = 8 then .ok (.jpc t.l t.m)
  else if t.op = 9 then .ok (decodeSys t.l t.m)
  else .error (.illegalOpcode t.op)

/-- The three cells of an instruction, by the opcode map (R66). -/
def encode : Instr → Triplet
  | .lit l m => ⟨1, l, m⟩
  | .rtn l => ⟨2, l, 0⟩
  | .add l => ⟨2, l, 1⟩
  | .sub l => ⟨2, l, 2⟩
  | .mul l => ⟨2, l, 3⟩
  | .div l => ⟨2, l, 4⟩
  | .eql l => ⟨2, l, 5⟩
  | .neq l => ⟨2, l, 6⟩
  | .lss l => ⟨2, l, 7⟩
  | .leq l => ⟨2, l, 8⟩
  | .gtr l => ⟨2, l, 9⟩
  | .geq l => ⟨2, l, 10⟩
  | .oprInvalid l m => ⟨2, l, m⟩
  | .lod l m => ⟨3, l, m⟩
  | .sto l m => ⟨4, l, m⟩
  | .cal l m => ⟨5, l, m⟩
  | .inc l m => ⟨6, l, m⟩
  | .jmp l m => ⟨7, l, m⟩
  | .jpc l m => ⟨8, l, m⟩
  | .sysPrint l => ⟨9, l, 1⟩
  | .sysRead l => ⟨9, l, 2⟩
  | .sysHalt l => ⟨9, l, 3⟩
  | .sysInvalid l m => ⟨9, l, m⟩

/-! ## The packed word of the opcode table -/

/-- The table's word is `op ‖ L ‖ M` with the opcode cell in the high bits, 32 bits a cell (R67). -/
def unpackWord (w : Nat) : Triplet :=
  ⟨wrap 32 (w / 2 ^ 64 % 2 ^ 32 : Nat), wrap 32 (w / 2 ^ 32 % 2 ^ 32 : Nat), wrap 32 (w % 2 ^ 32 : Nat)⟩

/-- The unsigned 32-bit pattern of a cell. -/
def cellBits (v : Int) : Nat := (v % (2 ^ 32 : Nat)).toNat

/-- The packed word of three cells (R67). -/
def packWord (t : Triplet) : Nat := cellBits t.op * 2 ^ 64 + cellBits t.l * 2 ^ 32 + cellBits t.m

/-- The three cells whose packed word is `w`, every bit from `nbits` up being 0 (log 16). -/
def tableTriplet (nbits w : Nat) : Triplet := unpackWord (w % 2 ^ nbits)

/-- The instruction the decoder reads from a word of the opcode table (R67). -/
def decodeTableWord (nbits w : Nat) : Option Instr := (decode (tableTriplet nbits w)).toOption

/-- The row of spec/opcode_table.json an instruction belongs to. -/
def Instr.mnemonic : Instr → String
  | .lit _ _ => "LIT"
  | .rtn _ => "RTN"
  | .add _ => "ADD"
  | .sub _ => "SUB"
  | .mul _ => "MUL"
  | .div _ => "DIV"
  | .eql _ => "EQL"
  | .neq _ => "NEQ"
  | .lss _ => "LSS"
  | .leq _ => "LEQ"
  | .gtr _ => "GTR"
  | .geq _ => "GEQ"
  | .oprInvalid _ _ => "OPR.invalid"
  | .lod _ _ => "LOD"
  | .sto _ _ => "STO"
  | .cal _ _ => "CAL"
  | .inc _ _ => "INC"
  | .jmp _ _ => "JMP"
  | .jpc _ _ => "JPC"
  | .sysPrint _ => "SYS.PRINT"
  | .sysRead _ => "SYS.READ"
  | .sysHalt _ => "SYS.HALT"
  | .sysInvalid _ _ => "SYS.invalid"

/-- A row of spec/opcode_table.json: a word is of the row when `(word AND mask) = match` (R67). -/
structure TableRow where
  mnemonic : String
  word : Nat
  mask : Nat
deriving DecidableEq, Repr

/-- The rows with a mask on the opcode and the modifier cell. -/
def selectorRows : List TableRow := [
  ⟨"RTN", 0x000000020000000000000000, 0xFFFFFFFF00000000FFFFFFFF⟩,
  ⟨"ADD", 0x000000020000000000000001, 0xFFFFFFFF00000000FFFFFFFF⟩,
  ⟨"SUB", 0x000000020000000000000002, 0xFFFFFFFF00000000FFFFFFFF⟩,
  ⟨"MUL", 0x000000020000000000000003, 0xFFFFFFFF00000000FFFFFFFF⟩,
  ⟨"DIV", 0x000000020000000000000004, 0xFFFFFFFF00000000FFFFFFFF⟩,
  ⟨"EQL", 0x000000020000000000000005, 0xFFFFFFFF00000000FFFFFFFF⟩,
  ⟨"NEQ", 0x000000020000000000000006, 0xFFFFFFFF00000000FFFFFFFF⟩,
  ⟨"LSS", 0x000000020000000000000007, 0xFFFFFFFF00000000FFFFFFFF⟩,
  ⟨"LEQ", 0x000000020000000000000008, 0xFFFFFFFF00000000FFFFFFFF⟩,
  ⟨"GTR", 0x000000020000000000000009, 0xFFFFFFFF00000000FFFFFFFF⟩,
  ⟨"GEQ", 0x00000002000000000000000A, 0xFFFFFFFF00000000FFFFFFFF⟩,
  ⟨"SYS.PRINT", 0x000000090000000000000001, 0xFFFFFFFF00000000FFFFFFFF⟩,
  ⟨"SYS.READ", 0x000000090000000000000002, 0xFFFFFFFF00000000FFFFFFFF⟩,
  ⟨"SYS.HALT", 0x000000090000000000000003, 0xFFFFFFFF00000000FFFFFFFF⟩]

/-- The rows with a mask on the opcode cell only, the two fallback rows among them. -/
def opcodeRows : List TableRow := [
  ⟨"LIT", 0x000000010000000000000000, 0xFFFFFFFF0000000000000000⟩,
  ⟨"OPR.invalid", 0x000000020000000000000000, 0xFFFFFFFF0000000000000000⟩,
  ⟨"LOD", 0x000000030000000000000000, 0xFFFFFFFF0000000000000000⟩,
  ⟨"STO", 0x000000040000000000000000, 0xFFFFFFFF0000000000000000⟩,
  ⟨"CAL", 0x000000050000000000000000, 0xFFFFFFFF0000000000000000⟩,
  ⟨"INC", 0x000000060000000000000000, 0xFFFFFFFF0000000000000000⟩,
  ⟨"JMP", 0x000000070000000000000000, 0xFFFFFFFF0000000000000000⟩,
  ⟨"JPC", 0x000000080000000000000000, 0xFFFFFFFF0000000000000000⟩,
  ⟨"SYS.invalid", 0x000000090000000000000000, 0xFFFFFFFF0000000000000000⟩]

/-- The row a word belongs to: rows are tried in decreasing number of mask bits (R67). -/
def tableRow (w : Nat) : Option TableRow :=
  (selectorRows ++ opcodeRows).find? fun r => decide (w &&& r.mask = r.word)

end Sys2Proof
end

