-- ==== Sys2Proof/Config.lean ====
section
/-! DEFINITION. What is fixed for a whole run (spec/00_scope.md R6, R15), the reference's values of it, and the free values. -/

namespace Sys2Proof

/-- One answer of the input port (spec/50_interfaces.md R152). -/
inductive InputItem where
  /-- `Int(v)` -/
  | int (v : Int)
  /-- `Fail`: malformed input -/
  | fail
deriving DecidableEq, Repr

/-- The parameters of the machine (R6). The program itself stands in the code region of memory. -/
structure Params where
  /-- memory capacity in cells -/
  N : Nat
  /-- width of a cell in bits -/
  W : Nat
  /-- number of loaded instructions -/
  n : Nat
  /-- the answers the environment gives to SYS.READ -/
  input : List InputItem
deriving DecidableEq, Repr

/-- The reference implementation's capacity (R6). -/
def Config.capacity : Nat := 500

/-- The spec's default cell width (R6). -/
def Config.width : Nat := 32

/-- Free values: the integers behind the cells the spec calls unspecified, one for each number a step draws (log 5). -/
opaque Config.freeInt : Nat → Int

end Sys2Proof
end

