-- ==== Sys2Proof/Machine/State.lean ====
section
/-! DEFINITION. The whole state of the machine (spec/10_state.md), as plain data, and the state after reset (R32). -/

namespace Sys2Proof.Machine

/-- Memory as (cell address, cell) pairs in one canonical form: addresses strictly rising, no cell listed that is 0, which is
what an unlisted cell holds (R28: every cell outside the program is zeroed). A cell, not a byte, is the unit (R43, log 3). -/
abbrev Memory := List (Nat × Int)

/-- `RUN` (R26). -/
inductive Run where
  | running
  | halted
deriving DecidableEq, Repr

/-- `CAUSE` (R26, spec/60_exceptions.md R173). -/
inductive Cause where
  | none
  | halt
  | illegalOpcode
  | inputFault
  | addressFault
  | divideByZero
  | divideOverflow
  | illegalLevel
deriving DecidableEq, Repr

/-- The kind of an ADDRESS_FAULT (R173). -/
inductive AccessKind where
  | fetch
  | dataRead
  | dataWrite
  | regPC
  | regBP
  | regSP
deriving DecidableEq, Repr

/-- `FINFO`, what a fault records beside its cause (R173). -/
inductive FaultInfo where
  | none
  /-- ILLEGAL_OPCODE: the opcode cell -/
  | opcode (v : Int)
  /-- ADDRESS_FAULT: the kind, and the offending address or register value -/
  | address (kind : AccessKind) (v : Int)
  /-- ILLEGAL_LEVEL: the level cell -/
  | level (v : Int)
deriving DecidableEq, Repr

/-- The name a trace record shows (spec/50_interfaces.md R156). -/
inductive TraceName where
  | lit | lod | sto | cal | inc | jmp | jpc | sys
  | rtn | add | sub | mul | div | eql | neq | lss | leq | gtr | geq
  /-- an OPR with a reserved modifier -/
  | opr
deriving DecidableEq, Repr

/-- One cell of a trace record's stack list; `marked` when the AR mark stands before it (R156). -/
structure StackEntry where
  marked : Bool
  value : Int
deriving DecidableEq, Repr

/-- A trace record `(name, L, M, PC, BP, SP, stack)` (R156). -/
structure TraceRecord where
  name : TraceName
  l : Int
  m : Int
  pc : Int
  bp : Int
  sp : Int
  stack : List StackEntry
deriving DecidableEq, Repr

/-- What the output port carries (R153, R154). -/
inductive OutputEvent where
  | print (v : Int)
  | prompt
deriving DecidableEq, Repr

/-- What the diagnostic port carries (R155). -/
inductive DiagEvent where
  | badOpr (m : Int)
  | badSys (m : Int)
  | fatal (cause : Cause) (info : FaultInfo)
deriving DecidableEq, Repr

/-- What the trace port carries (R156, R157). -/
inductive TraceEvent where
  | header
  | initial (pc bp sp : Int)
  | record (r : TraceRecord)
deriving DecidableEq, Repr

/-- An event on one of the three ports. -/
inductive Event where
  | output (e : OutputEvent)
  | diag (e : DiagEvent)
  | trace (e : TraceEvent)
deriving DecidableEq, Repr

/-- The machine's state (R20 to R32). -/
structure State where
  /-- the run's constants (R6); no step changes them (log 1) -/
  params : Params
  /-- `Mem` (R28) -/
  mem : Memory
  /-- `PC` (R22), an integer: it can be -1 after a fetch from cells 2, 1, 0 (log 9) -/
  pc : Int
  /-- `BP` (R23) -/
  bp : Int
  /-- `SP` (R24) -/
  sp : Int
  /-- `IR` (R25) -/
  ir : Triplet
  /-- `RUN` (R26) -/
  run : Run
  /-- `CAUSE` (R26) -/
  cause : Cause
  /-- `FINFO` (R26) -/
  finfo : FaultInfo
  /-- the input position (R30) -/
  inpos : Nat
  /-- the events of the three ports, oldest first (R30, R158, log 12) -/
  ports : List Event
  /-- the MODEL's own: how many free values have been drawn (log 5) -/
  unspec : Nat
deriving DecidableEq, Repr

/-- What a run can stop with. Fatal conditions are not here: the spec gives the state they leave, so they are next states. -/
inductive Fault where
  /-- raised by `step` alone, in a halted state: "A halted machine has no step" (R170, R182). Safe: no state follows. -/
  | halted
deriving DecidableEq, Repr

/-- What the model does not do. -/
inductive Refusal where
  /-- raised by a dispatch arm whose instruction has no meaning; no arm is such. Safe. -/
  | notModelled (mnemonic : String)
  /-- raised by the loader `State.load` alone, on a configuration outside R7: it has no reset state. Safe. -/
  | badConfiguration
deriving DecidableEq, Repr

/-- The state right after reset of the reference configuration with no program loaded and no input (R32, R201, log 2).
IR and FINFO are unspecified there: (0, 0, 0) and nothing are the model's choice (logs 4, 6). -/
def State.reset : State where
  params := ⟨Config.capacity, Config.width, 0, []⟩
  mem := []
  pc := 499
  bp := 498
  sp := 499
  ir := ⟨0, 0, 0⟩
  run := .running
  cause := .none
  finfo := .none
  inpos := 0
  ports := [.trace .header, .trace (.initial 499 498 499)]
  unspec := 0

end Sys2Proof.Machine
end

