-- ==== Sys2Proof/Machine/Memory.lean ====
section
/-! DEFINITION. The raw cells of memory and the two regions of the address space (spec/20_memory.md R40, R41). -/

namespace Sys2Proof

/-- `CODE_LO = N - 3n` (R6, R40). -/
def Params.codeLo (p : Params) : Int := p.N - 3 * p.n

/-- `STACK_TOP = N - 1 - 3n` (R6, R27). -/
def Params.stackTop (p : Params) : Int := p.N - 1 - 3 * p.n

/-- The constraints on a configuration (spec/00_scope.md R7). -/
abbrev Params.Valid (p : Params) : Prop := 2 ≤ p.N ∧ 3 * p.n ≤ p.N - 2 ∧ p.N ≤ 2 ^ (p.W - 1)

namespace Machine

/-- What a cell that is not listed holds (R28). -/
def Memory.unlisted : Int := 0

/-- `Mem[a]`, with no check (spec/00_scope.md R11). -/
def Memory.read : Memory → Nat → Int
  | [], _ => Memory.unlisted
  | (b, w) :: rest, a => if b = a then w else Memory.read rest a

/-- Lists a cell unless it holds what an unlisted cell holds. -/
def Memory.list (a : Nat) (v : Int) (rest : Memory) : Memory :=
  if v = Memory.unlisted then rest else (a, v) :: rest

/-- `Mem[a] <- v`, with no check, keeping the canonical form. -/
def Memory.write : Memory → Nat → Int → Memory
  | [], a, v => Memory.list a v []
  | (b, w) :: rest, a, v =>
    if a < b then Memory.list a v ((b, w) :: rest)
    else if a = b then Memory.list a v rest
    else (b, w) :: Memory.write rest a v

/-- The canonical form: addresses strictly rising and no listed cell equal to what an unlisted one holds. -/
abbrev Memory.wf (m : Memory) : Prop :=
  m.Pairwise (fun x y => x.1 < y.1) ∧ ∀ x ∈ m, x.2 ≠ Memory.unlisted

/-- Every listed cell lies below `N` and holds a `W`-bit value (R28). -/
abbrev Memory.Fits (N W : Nat) (m : Memory) : Prop := ∀ x ∈ m, x.1 < N ∧ IsCell W x.2

end Machine
end Sys2Proof
end

