-- ==== Sys2Proof/Machine/Ops.lean ====
section
/-! DEFINITION. The operations every instruction is made of: register and port updates, checked memory accesses
(spec/20_memory.md R46, R47), the fetch (spec/60_exceptions.md R171), the register check (R176), `raise` (R178), and the end
of an instruction (R170). There is no return from an exception: `halted` is terminal (R182). -/

namespace Sys2Proof.Machine

/-! ## Register and port updates -/

def State.setMem (s : State) (m : Memory) : State := { s with mem := m }
def State.setPc (s : State) (v : Int) : State := { s with pc := v }
def State.setBp (s : State) (v : Int) : State := { s with bp := v }
def State.setSp (s : State) (v : Int) : State := { s with sp := v }
def State.setIr (s : State) (t : Triplet) : State := { s with ir := t }
def State.setFinfo (s : State) (i : FaultInfo) : State := { s with finfo := i }
def State.setInpos (s : State) (k : Nat) : State := { s with inpos := k }

/-- Appends an event to its port (R153 to R156). -/
def State.emit (s : State) (e : Event) : State := { s with ports := s.ports ++ [e] }

/-- The output port's sequence (R153). -/
def State.output (s : State) : List OutputEvent :=
  s.ports.filterMap fun | .output e => some e | _ => none

/-- The diagnostic port's sequence (R155). -/
def State.diagnostics (s : State) : List DiagEvent :=
  s.ports.filterMap fun | .diag e => some e | _ => none

/-- The trace port's sequence (R156). -/
def State.traces (s : State) : List TraceEvent :=
  s.ports.filterMap fun | .trace e => some e | _ => none

/-! ## Halting -/

/-- A fatal condition: its cause and what `FINFO` gets (R173). -/
structure Trap where
  cause : Cause
  info : FaultInfo
deriving DecidableEq, Repr

/-- The codes of R173. -/
def causeCode : Cause → Nat
  | .none => 0
  | .halt => 1
  | .illegalOpcode => 2
  | .inputFault => 3
  | .addressFault => 4
  | .divideByZero => 5
  | .divideOverflow => 6
  | .illegalLevel => 7

def illegalOpcode (op : Int) : Trap := ⟨.illegalOpcode, .opcode op⟩
def inputFault : Trap := ⟨.inputFault, .none⟩
def addressFault (kind : AccessKind) (v : Int) : Trap := ⟨.addressFault, .address kind v⟩
def divideByZero : Trap := ⟨.divideByZero, .none⟩
def divideOverflow : Trap := ⟨.divideOverflow, .none⟩
def illegalLevel (l : Int) : Trap := ⟨.illegalLevel, .level l⟩

/-- The unspecified contents of IR in a halted state: three cells drawn from the free values (R25, log 5). -/
def unspecifiedIr (W k : Nat) : Triplet :=
  ⟨wrap W (Config.freeInt k), wrap W (Config.freeInt (k + 1)), wrap W (Config.freeInt (k + 2))⟩

/-- `RUN <- halted`, `CAUSE <- c` (R137, R178); IR becomes unspecified (R25). -/
def State.endRun (s : State) (c : Cause) : State :=
  { s with run := .halted, cause := c, ir := unspecifiedIr s.params.W s.unspec, unspec := s.unspec + 3 }

/-- Taking an exception, `raise <Cause>(info)` (R178): from the state that the fault leaves, which for every cause but
INPUT_FAULT is the state before the execute phase, the machine halts, records cause and information and emits `FATAL`. -/
def State.raise (s : State) (t : Trap) : State :=
  ((s.endRun t.cause).setFinfo t.info).emit (.diag (.fatal t.cause t.info))

/-- A fetch fault is raised before IR and PC change and leaves both (R171). -/
def State.raiseAtFetch (s : State) (t : Trap) : State := (s.raise t).setIr s.ir

/-! ## Memory accesses -/

/-- `MemRead(a, 1)` (R46). -/
def memRead (kind : AccessKind) (a : Int) (s : State) : Except Trap Int :=
  if a < 0 ∨ a > s.params.N - 1 then .error (addressFault kind a) else .ok (s.mem.read a.toNat)

/-- `MemWrite(a, 1, v)` (R46). -/
def memWrite (a : Int) (v : Int) (s : State) : Except Trap State :=
  if a < 0 ∨ a > s.params.N - 1 then .error (addressFault .dataWrite a)
  else .ok (s.setMem (s.mem.write a.toNat v))

/-- `DataRead(a)` (R47). -/
def dataRead (a : Int) (s : State) : Except Trap Int :=
  if a ≥ s.params.codeLo then .error (addressFault .dataRead a) else memRead .dataRead a s

/-- `DataWrite(a, v)` (R47). -/
def dataWrite (a : Int) (v : Int) (s : State) : Except Trap State :=
  if a ≥ s.params.codeLo then .error (addressFault .dataWrite a) else memWrite a v s

/-- The fetch phase (R171): the three cells downward from PC, no region check (R52), then the fetch advance of PC. -/
def fetch (s : State) : Except Trap State := do
  let op ← memRead .fetch s.pc s
  let l ← memRead .fetch (s.pc - 1) s
  let m ← memRead .fetch (s.pc - 2) s
  .ok ((s.setIr ⟨op, l, m⟩).setPc (s.pc - 3))

/-! ## The input port -/

/-- The next item of the input port: past the end, and for a number that does not fit a cell, it is `Fail` (R152). -/
def nextInput (s : State) : InputItem :=
  match s.params.input[s.inpos]? with
  | some (.int v) => if IsCell s.params.W v then .int v else .fail
  | _ => .fail

/-! ## The end of an instruction -/

/-- The check phase (R176): PC, then BP, then SP. -/
def checkRegisters (s : State) : Option Trap :=
  if s.pc < 0 ∨ s.pc > s.params.N - 1 then some (addressFault .regPC s.pc)
  else if s.bp < 0 ∨ s.bp > s.params.stackTop then some (addressFault .regBP s.bp)
  else if s.sp < 0 ∨ s.sp > s.params.stackTop then some (addressFault .regSP s.sp)
  else none

/-- The entry of a trace record's stack list for the cell `a`: the AR mark stands before the cell at BP when BP differs from
SP and from the initial boundary (R156). -/
def stackEntry (s : State) (a : Int) : StackEntry :=
  ⟨decide (a = s.bp ∧ s.bp ≠ s.sp ∧ s.bp ≠ s.params.stackTop), s.mem.read a.toNat⟩

/-- The cells `Mem[STACK_TOP], Mem[STACK_TOP - 1], ..., Mem[SP]` (R156). -/
def stackList (s : State) : List StackEntry :=
  (List.range (s.params.stackTop - s.sp + 1).toNat).map fun (k : Nat) => stackEntry s (s.params.stackTop - (k : Int))

/-- The trace record of an instruction: level and modifier from the fetched `IR`, everything else from the state after the
instruction (R156). -/
def traceRecord (name : TraceName) (ir : Triplet) (t : State) : TraceRecord :=
  ⟨name, ir.l, ir.m, t.pc, t.bp, t.sp, stackList t⟩

/-- Check, commit and trace (R170), `s` being the state after the fetch phase and `r` what the execute phase made of a copy
of it: a fault discards the copy (R178). -/
def finish (name : TraceName) (s : State) (r : Except Trap State) : Host.Outcome State Fault Refusal :=
  match r with
  | .error t => .next (s.raise t)
  | .ok s' =>
    match checkRegisters s' with
    | some t => .next (s.raise t)
    | none => .next (s'.emit (.trace (.record (traceRecord name s.ir s'))))

end Sys2Proof.Machine
end

