-- ==== Sys2Proof/Machine/Operands.lean ====
section
/-! DEFINITION. How instructions reach their operands: the static-link walk and the effective address
(spec/42_load_store.md R110 to R112), the transfer target (spec/30_encoding.md R64), the two topmost cells
(spec/41_opr_arithmetic.md R90) and the arithmetic on them (R91 to R94, R102, R103). -/

namespace Sys2Proof.Machine

/-- `repeat L times: a <- DataRead(a)` (R110). -/
def walk (s : State) : Nat → Int → Except Trap Int
  | 0, a => .ok a
  | k + 1, a =>
    match dataRead a s with
    | .ok v => walk s k v
    | .error t => .error t

/-- `base(b, L)` (R110); a negative level is ILLEGAL_LEVEL before any access (R174). -/
def base (b : Int) (l : Int) (s : State) : Except Trap Int :=
  if l < 0 then .error (illegalLevel l) else walk s l.toNat b

/-- `ea = base(BP, L) - M` (R111, R112). -/
def effectiveAddress (l m : Int) (s : State) : Except Trap Int := do
  let b ← base s.bp l s
  .ok (b - m)

/-- `target(M) = (N - 1) - M`, in unbounded integers (R64). -/
def target (m : Int) (s : State) : Int := (s.params.N - 1) - m

/-- The common form of the ten binary operations (R90): `b` the top, `a` the second, the result over `a`, `b` popped. -/
def binary (f : Int → Int → Except Trap Int) (s : State) : Except Trap State := do
  let b ← dataRead s.sp s
  let a ← dataRead (s.sp + 1) s
  let r ← f a b
  let s' ← dataWrite (s.sp + 1) r s
  .ok (s'.setSp (s.sp + 1))

/-- R91 -/
def addCells (W : Nat) (a b : Int) : Int := wrap W (a + b)

/-- R92: the second minus the top -/
def subCells (W : Nat) (a b : Int) : Int := wrap W (a - b)

/-- R93 -/
def mulCells (W : Nat) (a b : Int) : Int := wrap W (a * b)

/-- `tdiv(a, b) = sign(a) * sign(b) * floor(|a| / |b|)` (spec/00_scope.md R12). -/
def tdiv (a b : Int) : Int := a.sign * b.sign * ((a.natAbs / b.natAbs : Nat) : Int)

/-- R94, R103 -/
def divCells (W : Nat) (a b : Int) : Except Trap Int :=
  if b = 0 then .error divideByZero
  else if a = intMin W ∧ b = -1 then .error divideOverflow
  else .ok (tdiv a b)

end Sys2Proof.Machine
end

