-- ==== Sys2Proof/Machine/Arithmetic.lean ====
section
/-! DEFINITION. OPR 1 to 4 and OPR with a reserved modifier (spec/41_opr_arithmetic.md R91 to R94, R101). -/

namespace Sys2Proof.Machine

/-- R91 -/
def execAdd (_l : Int) (s : State) : Host.Outcome State Fault Refusal :=
  finish .add s (binary (fun a b => .ok (addCells s.params.W a b)) s)

/-- R92 -/
def execSub (_l : Int) (s : State) : Host.Outcome State Fault Refusal :=
  finish .sub s (binary (fun a b => .ok (subCells s.params.W a b)) s)

/-- R93 -/
def execMul (_l : Int) (s : State) : Host.Outcome State Fault Refusal :=
  finish .mul s (binary (fun a b => .ok (mulCells s.params.W a b)) s)

/-- R94 -/
def execDiv (_l : Int) (s : State) : Host.Outcome State Fault Refusal :=
  finish .div s (binary (divCells s.params.W) s)

/-- R101: a diagnostic and no other effect -/
def execOprInvalid (_l m : Int) (s : State) : Host.Outcome State Fault Refusal :=
  finish .opr s (.ok (s.emit (.diag (.badOpr m))))

end Sys2Proof.Machine
end

