-- ==== Sys2Proof/Machine/Flags.lean ====
section
/-! DEFINITION. The machine has no flags (spec/10_state.md R31). What stands in their place is here: the comparisons, which
leave exactly 0 or 1 in a cell (spec/41_opr_arithmetic.md R95 to R100, R104), and the condition JPC tests
(spec/43_control.md R123). -/

namespace Sys2Proof.Machine

/-- A comparison's result, exactly 0 or 1 (R104). -/
def truth (b : Bool) : Int := if b then 1 else 0

/-- R95 -/
def eqlCells (a b : Int) : Int := truth (decide (a = b))

/-- R96 -/
def neqCells (a b : Int) : Int := truth (decide (a ≠ b))

/-- R97 -/
def lssCells (a b : Int) : Int := truth (decide (a < b))

/-- R98 -/
def leqCells (a b : Int) : Int := truth (decide (a ≤ b))

/-- R99 -/
def gtrCells (a b : Int) : Int := truth (decide (a > b))

/-- R100 -/
def geqCells (a b : Int) : Int := truth (decide (a ≥ b))

/-- JPC branches on zero, that is on a false comparison (R123). -/
def branchTaken (v : Int) : Bool := decide (v = 0)

end Sys2Proof.Machine
end

