-- ==== Sys2Proof/Machine/Compare.lean ====
section
/-! DEFINITION. OPR 5 to 10, the signed comparisons (spec/41_opr_arithmetic.md R95 to R100). -/

namespace Sys2Proof.Machine

/-- R95 -/
def execEql (_l : Int) (s : State) : Host.Outcome State Fault Refusal :=
  finish .eql s (binary (fun a b => .ok (eqlCells a b)) s)

/-- R96 -/
def execNeq (_l : Int) (s : State) : Host.Outcome State Fault Refusal :=
  finish .neq s (binary (fun a b => .ok (neqCells a b)) s)

/-- R97 -/
def execLss (_l : Int) (s : State) : Host.Outcome State Fault Refusal :=
  finish .lss s (binary (fun a b => .ok (lssCells a b)) s)

/-- R98 -/
def execLeq (_l : Int) (s : State) : Host.Outcome State Fault Refusal :=
  finish .leq s (binary (fun a b => .ok (leqCells a b)) s)

/-- R99 -/
def execGtr (_l : Int) (s : State) : Host.Outcome State Fault Refusal :=
  finish .gtr s (binary (fun a b => .ok (gtrCells a b)) s)

/-- R100 -/
def execGeq (_l : Int) (s : State) : Host.Outcome State Fault Refusal :=
  finish .geq s (binary (fun a b => .ok (geqCells a b)) s)

end Sys2Proof.Machine
end

