-- ==== Sys2Proof/Machine/Control.lean ====
section
/-! DEFINITION. CAL, RTN, JMP, JPC (spec/43_control.md R120 to R123). -/

namespace Sys2Proof.Machine

/-- R120: `base` before the three writes, static link, dynamic link, return address; SP is not modified. The return address
is the post-fetch PC (R22), and a CAL fetched from cells 2, 1, 0 stores -1, against R20's 'non-negative'. DEDUCED, log 23. -/
def execCal (l m : Int) (s : State) : Host.Outcome State Fault Refusal :=
  finish .cal s do
    let sl ← base s.bp l s
    let s1 ← dataWrite (s.sp - 1) sl s
    let s2 ← dataWrite (s.sp - 2) s.bp s1
    let s3 ← dataWrite (s.sp - 3) s.pc s2
    .ok ((s3.setBp (s.sp - 1)).setPc (target m s))

/-- R121 -/
def execRtn (_l : Int) (s : State) : Host.Outcome State Fault Refusal :=
  finish .rtn s do
    let bp ← dataRead (s.bp + 1 - 2) s
    let pc ← dataRead (s.bp + 1 - 3) s
    .ok (((s.setSp (s.bp + 1)).setBp bp).setPc pc)

/-- R122 -/
def execJmp (_l m : Int) (s : State) : Host.Outcome State Fault Refusal :=
  finish .jmp s (.ok (s.setPc (target m s)))

/-- R123: SP moves whether or not the branch is taken -/
def execJpc (_l m : Int) (s : State) : Host.Outcome State Fault Refusal :=
  finish .jpc s do
    let v ← dataRead s.sp s
    .ok ((if branchTaken v then s.setPc (target m s) else s).setSp (s.sp + 1))

end Sys2Proof.Machine
end

