-- ==== Sys2Proof/Machine/Literal.lean ====
section
/-! DEFINITION. LIT and INC (spec/40_literal_and_frame.md). Each meaning starts after the fetch phase: PC is the address of
the next instruction and IR holds the fetched cells (log 19). The level is ignored (R62). -/

namespace Sys2Proof.Machine

/-- R80 -/
def execLit (_l m : Int) (s : State) : Host.Outcome State Fault Refusal :=
  finish .lit s do
    let s' ← dataWrite (s.sp - 1) m s
    .ok (s'.setSp (s.sp - 1))

/-- R81: no cell is written, and any sign of `M` is accepted -/
def execInc (_l m : Int) (s : State) : Host.Outcome State Fault Refusal :=
  finish .inc s (.ok (s.setSp (s.sp - m)))

end Sys2Proof.Machine
end

