-- ==== Sys2Proof/Machine/LoadStore.lean ====
section
/-! DEFINITION. LOD and STO (spec/42_load_store.md R111, R112). -/

namespace Sys2Proof.Machine

/-- R111 -/
def execLod (l m : Int) (s : State) : Host.Outcome State Fault Refusal :=
  finish .lod s do
    let ea ← effectiveAddress l m s
    let v ← dataRead ea s
    let s' ← dataWrite (s.sp - 1) v s
    .ok (s'.setSp (s.sp - 1))

/-- R112 -/
def execSto (l m : Int) (s : State) : Host.Outcome State Fault Refusal :=
  finish .sto s do
    let ea ← effectiveAddress l m s
    let v ← dataRead s.sp s
    let s' ← dataWrite ea v s
    .ok (s'.setSp (s.sp + 1))

end Sys2Proof.Machine
end

