-- ==== Sys2Proof/Machine/System.lean ====
section
/-! DEFINITION. The system calls (spec/44_system.md R135 to R138). -/

namespace Sys2Proof.Machine

/-- R135 -/
def execSysPrint (_l : Int) (s : State) : Host.Outcome State Fault Refusal :=
  finish .sys s do
    let v ← dataRead s.sp s
    .ok ((s.emit (.output (.print v))).setSp (s.sp + 1))

/-- R136: the one fault that keeps effects is INPUT_FAULT, raised from the state with SP decremented, the prompt emitted and
the item taken (R179) -/
def execSysRead (_l : Int) (s : State) : Host.Outcome State Fault Refusal :=
  if s.sp - 1 < 0 then .next (s.raise (addressFault .dataWrite (s.sp - 1)))
  else
    let asked := ((s.setSp (s.sp - 1)).emit (.output .prompt)).setInpos (s.inpos + 1)
    match nextInput s with
    | .fail => .next (asked.raise inputFault)
    | .int v => finish .sys s (dataWrite (s.sp - 1) v asked)

/-- R137: the check phase takes priority over the halt -/
def execSysHalt (_l : Int) (s : State) : Host.Outcome State Fault Refusal :=
  finish .sys s (.ok (s.endRun .halt))

/-- R138: a diagnostic and no other effect -/
def execSysInvalid (_l m : Int) (s : State) : Host.Outcome State Fault Refusal :=
  finish .sys s (.ok (s.emit (.diag (.badSys m))))

end Sys2Proof.Machine
end

