-- ==== Sys2Proof/Machine/Dispatch.lean ====
section
/-! DEFINITION. The meaning of every instruction, one arm per row of spec/opcode_table.json. -/

namespace Sys2Proof.Machine

def exec (i : Instr) (s : State) : Host.Outcome State Fault Refusal :=
  match i with
  | .lit l m => Sys2Proof.Machine.execLit l m s
  | .rtn l => Sys2Proof.Machine.execRtn l s
  | .add l => Sys2Proof.Machine.execAdd l s
  | .sub l => Sys2Proof.Machine.execSub l s
  | .mul l => Sys2Proof.Machine.execMul l s
  | .div l => Sys2Proof.Machine.execDiv l s
  | .eql l => Sys2Proof.Machine.execEql l s
  | .neq l => Sys2Proof.Machine.execNeq l s
  | .lss l => Sys2Proof.Machine.execLss l s
  | .leq l => Sys2Proof.Machine.execLeq l s
  | .gtr l => Sys2Proof.Machine.execGtr l s
  | .geq l => Sys2Proof.Machine.execGeq l s
  | .oprInvalid l m => Sys2Proof.Machine.execOprInvalid l m s
  | .lod l m => Sys2Proof.Machine.execLod l m s
  | .sto l m => Sys2Proof.Machine.execSto l m s
  | .cal l m => Sys2Proof.Machine.execCal l m s
  | .inc l m => Sys2Proof.Machine.execInc l m s
  | .jmp l m => Sys2Proof.Machine.execJmp l m s
  | .jpc l m => Sys2Proof.Machine.execJpc l m s
  | .sysPrint l => Sys2Proof.Machine.execSysPrint l s
  | .sysRead l => Sys2Proof.Machine.execSysRead l s
  | .sysHalt l => Sys2Proof.Machine.execSysHalt l s
  | .sysInvalid l m => Sys2Proof.Machine.execSysInvalid l m s

end Sys2Proof.Machine
end

