-- ==== Sys2Proof/Machine/Step.lean ====
section
/-! DEFINITION. One step of the machine (spec/60_exceptions.md R170), and placing an instruction where the next step fetches. -/

namespace Sys2Proof.Machine

/-- Fetch, decode, execute, check, trace (R170). A halted machine has no step (R182); a fetch fault (R171) and an illegal
opcode (R172) take their exception. -/
def step (s : State) : Host.Outcome State Fault Refusal :=
  match s.run with
  | .halted => .fault .halted
  | .running =>
    match fetch s with
    | .error t => .next (s.raiseAtFetch t)
    | .ok s' =>
      match decode s'.ir with
      | .error (.illegalOpcode op) => .next (s'.raise (illegalOpcode op))
      | .ok i => exec i s'

/-- The packed word's three cells stored at PC, PC - 1 and PC - 2, each narrowed to the machine's cell (R67), so that the next
step of a running machine with `2 ≤ PC ≤ N - 1` runs that instruction. Nothing else changes (log 2). -/
def State.withFetchWord (s : State) (nbits w : Nat) : State :=
  let t := tableTriplet nbits w
  s.setMem (((s.mem.write s.pc.toNat (wrap s.params.W t.op)).write (s.pc - 1).toNat (wrap s.params.W t.l)).write
    (s.pc - 2).toNat (wrap s.params.W t.m))

end Sys2Proof.Machine
end

