-- ==== Sys2Proof/Machine/Load.lean ====
section
/-! DEFINITION. The loader: the reset state of a configuration (spec/50_interfaces.md R150, spec/70_reset_and_hazards.md R200,
spec/10_state.md R32). -/

namespace Sys2Proof.Machine

/-- Writes triplet `i`, `i + 1`, ... of the program from the top of memory downward (R32). -/
def placeProgram (N : Nat) : Nat → List Triplet → Memory → Memory
  | _, [], m => m
  | i, t :: rest, m =>
    placeProgram N (i + 1) rest
      (((m.write (N - 1 - 3 * i) t.op).write (N - 2 - 3 * i) t.l).write (N - 3 - 3 * i) t.m)

/-- The reset state of capacity `N`, width `W`, program `prog` and input sequence `input` (R200). A configuration outside R7,
and a program with a value that is no `W`-bit cell, has no reset state (log 18). -/
def State.load (N W : Nat) (prog : List Triplet) (input : List InputItem) : Host.Outcome State Fault Refusal :=
  let p : Params := ⟨N, W, prog.length, input⟩
  if p.Valid ∧ ∀ t ∈ prog, t.IsCells W then
    .next {
      params := p
      mem := placeProgram N 0 prog []
      pc := N - 1
      bp := p.stackTop - 1
      sp := p.stackTop
      ir := ⟨0, 0, 0⟩
      run := .running
      cause := .none
      finfo := .none
      inpos := 0
      ports := [.trace .header, .trace (.initial (N - 1) (p.stackTop - 1) p.stackTop)]
      unspec := 0 }
  else .refused .badConfiguration

end Sys2Proof.Machine
end

