-- ==== Sys2Proof/Safety.lean ====
section
/-! DEFINITION. What a legitimate state and a safe run are, and the words the statements are written in. -/

namespace Sys2Proof.Machine

/-- The states between steps that the rules allow (spec/10_state.md R20, R26, R28, spec/60_exceptions.md R176): a valid
configuration; canonical memory of `W`-bit cells below `N`; BP and SP in the data region; PC in memory, or -1 in a halted
state (log 9); CAUSE is NONE exactly while running. -/
abbrev State.Inv (s : State) : Prop :=
  s.params.Valid ∧ s.mem.wf ∧ s.mem.Fits s.params.N s.params.W ∧
  (0 ≤ s.bp ∧ s.bp ≤ s.params.stackTop) ∧ (0 ≤ s.sp ∧ s.sp ≤ s.params.stackTop) ∧
  (-1 ≤ s.pc ∧ s.pc ≤ s.params.N - 1) ∧ s.ir.IsCells s.params.W ∧
  (s.run = .running → 0 ≤ s.pc ∧ s.cause = .none) ∧ (s.run = .halted → s.cause ≠ .none)

/-- The states the fetch phase leaves in a running machine: as between steps, with PC advanced by -3, so that it may be -1
(R171). The meanings of instructions start here (log 19). -/
abbrev State.Fetched (s : State) : Prop :=
  s.params.Valid ∧ s.mem.wf ∧ s.mem.Fits s.params.N s.params.W ∧
  (0 ≤ s.bp ∧ s.bp ≤ s.params.stackTop) ∧ (0 ≤ s.sp ∧ s.sp ≤ s.params.stackTop) ∧
  (-1 ≤ s.pc ∧ s.pc ≤ s.params.N - 4) ∧ s.ir.IsCells s.params.W ∧ s.run = .running ∧ s.cause = .none

/-- The three cells the fetch phase reads at PC (R171). -/
def State.fetched (s : State) : Triplet :=
  ⟨s.mem.read s.pc.toNat, s.mem.read (s.pc - 1).toNat, s.mem.read (s.pc - 2).toNat⟩

/-- The run has ended normally (spec/60_exceptions.md R184). -/
abbrev State.EndedNormally (s : State) : Prop := s.run = .halted ∧ s.cause = .halt

/-- The run has ended by a fault (spec/50_interfaces.md R160). -/
abbrev State.Faulted (s : State) : Prop := s.run = .halted ∧ s.cause ≠ .halt

/-- The state is safe: legitimate, and not ended by a fault. -/
abbrev State.Safe (s : State) : Prop := s.Inv ∧ ¬ s.Faulted

/-! ## The words of the statements -/

/-- `t` is the halted state that a fault with this cause and information leaves when it is raised in `s` (R178): memory,
registers, input position and parameters are those of `s`, and `FATAL` is the one new event. Nothing is said of IR (R25). -/
def Halts (s t : State) (c : Cause) (i : FaultInfo) : Prop :=
  t.run = .halted ∧ t.cause = c ∧ t.finfo = i ∧ t.params = s.params ∧ t.mem = s.mem ∧ t.pc = s.pc ∧ t.bp = s.bp ∧
  t.sp = s.sp ∧ t.inpos = s.inpos ∧ t.ports = s.ports ++ [.diag (.fatal c i)]

/-- Everything beside registers, memory, ports and input position is as before: the machine still runs, with the same
parameters, CAUSE, FINFO and IR, and no free value was drawn. -/
def Undisturbed (s t : State) : Prop :=
  t.params = s.params ∧ t.run = s.run ∧ t.cause = s.cause ∧ t.finfo = s.finfo ∧ t.ir = s.ir ∧ t.unspec = s.unspec

/-- The events of a completed instruction: what its execute phase emitted, then its trace record with the fetched level and
modifier, the registers after the instruction and the stack list (R156, R158). -/
def Emits (s t : State) (name : TraceName) (events : List Event) : Prop :=
  t.ports = s.ports ++ events ++
    [.trace (.record ⟨name, s.ir.l, s.ir.m, t.pc, t.bp, t.sp, stackList t⟩)]

/-- No cell of memory changes. -/
def SameCells (s t : State) : Prop := ∀ a : Nat, t.mem.read a = s.mem.read a

/-- The cell `a` becomes `v` and every other cell is as before. -/
def OneCell (s t : State) (a : Int) (v : Int) : Prop :=
  ∀ b : Nat, t.mem.read b = if (b : Int) = a then v else s.mem.read b

/-- The instruction ends in the halted state of this fault, with nothing of its own effect (R178). -/
def Traps (i : Instr) (s : State) (c : Cause) (info : FaultInfo) : Prop :=
  ∃ t, exec i s = .next t ∧ Halts s t c info

/-- The top of the stack (spec/10_state.md R24). -/
def State.top (s : State) : Int := s.mem.read s.sp.toNat

/-- The cell above the top, pushed before it (spec/41_opr_arithmetic.md R90). -/
def State.second (s : State) : Int := s.mem.read (s.sp + 1).toNat

/-- A binary operation completes with the result `r`: it stands over the second cell, SP is one higher, and nothing else
changes; the popped cell is not cleared (R90). -/
def CompletesBinary (i : Instr) (s : State) (name : TraceName) (r : Int) : Prop :=
  ∃ t, exec i s = .next t ∧ OneCell s t (s.sp + 1) r ∧ t.sp = s.sp + 1 ∧ t.pc = s.pc ∧ t.bp = s.bp ∧ t.inpos = s.inpos ∧
    Undisturbed s t ∧ Emits s t name []

/-- `s` and `t` agree on all that instructions read and all that status shows: they may differ in IR, FINFO, the ports' past
and the model's counter of free values. -/
def SameMachine (s t : State) : Prop :=
  t.params = s.params ∧ t.mem = s.mem ∧ t.pc = s.pc ∧ t.bp = s.bp ∧ t.sp = s.sp ∧ t.run = s.run ∧ t.cause = s.cause ∧
  t.inpos = s.inpos

end Sys2Proof.Machine
end

