-- ==== Sys2Proof/Certificates/Slice0/Obligations.lean ====
section
/-! DEFINITION. The statements of the package: what the rules of spec/ say the machine does. Words of Sys2Proof/Safety.lean
are used throughout; `s.Fetched` is a state the fetch phase leaves, where the meanings start, and its PC is the address of the
next instruction, or -1 when the instruction was fetched from cells 2, 1, 0 (R171). -/

open Sys2Proof Sys2Proof.Machine

/-! ## Encoding -/

/-- R60, R63, R66: decoding the encoded instruction gives it back, for every value its fields can have. -/
def Obligations.DecodeOfEncodeIsTheInstruction : Prop :=
  ∀ (W : Nat) (i : Instr), WellFormed W i = true → decode (encode i) = .ok i

/-- R63, R66: three cells have one meaning; what they decode to encodes to them and to no others, and is well formed. -/
def Obligations.EncodeOfDecodeIsTheTriplet : Prop :=
  ∀ (W : Nat) (t : Triplet) (i : Instr), t.IsCells W → decode t = .ok i → encode i = t ∧ WellFormed W i = true

/-- R67: the packed word of a well-formed instruction of 32-bit cells decodes to it. -/
def Obligations.PackedWordRoundTrip : Prop :=
  ∀ i : Instr, WellFormed 32 i = true →
    packWord (encode i) < 2 ^ 96 ∧ decodeTableWord 96 (packWord (encode i)) = some i

/-- R63, R66, R67: on every 96-bit word the rows of the opcode table, tried in decreasing number of mask bits, and the
decoder name the same instruction or neither names one. -/
def Obligations.OpcodeTableAgreesWithDecoder : Prop :=
  ∀ w : Nat, w < 2 ^ 96 → (tableRow w).map TableRow.mnemonic = (decodeTableWord 96 w).map Instr.mnemonic

/-- R66: triplets written out from the opcode map decode to the instructions they stand for. -/
def Obligations.WrittenTripletsDecode : Prop :=
  decode ⟨1, 0, 5⟩ = .ok (.lit 0 5) ∧ decode ⟨2, 0, 0⟩ = .ok (.rtn 0) ∧ decode ⟨2, 0, 4⟩ = .ok (.div 0) ∧
  decode ⟨2, 7, 11⟩ = .ok (.oprInvalid 7 11) ∧ decode ⟨3, 1, 3⟩ = .ok (.lod 1 3) ∧ decode ⟨5, 0, 21⟩ = .ok (.cal 0 21) ∧
  decode ⟨8, 0, 42⟩ = .ok (.jpc 0 42) ∧ decode ⟨9, 0, 3⟩ = .ok (.sysHalt 0) ∧ decode ⟨9, 0, 0⟩ = .ok (.sysInvalid 0 0) ∧
  decode ⟨10, 0, 0⟩ = .error (.illegalOpcode 10)

/-- R8: `wrap_W(x)` is the one value of the cell range congruent to `x` modulo `2^W`. -/
def Obligations.WrapIsTheCongruentCell : Prop :=
  ∀ (W : Nat) (x : Int), 1 ≤ W →
    IsCell W (wrap W x) ∧ ((2 ^ W : Nat) : Int) ∣ wrap W x - x ∧
    ∀ y : Int, IsCell W y → ((2 ^ W : Nat) : Int) ∣ y - x → y = wrap W x

/-! ## The step -/

/-- R170, R171: a running machine whose three cells at PC decode to `i` steps as `i` does on the state with IR loaded and PC
moved to the next instruction in sequence. -/
def Obligations.StepRunsTheDecodedInstruction : Prop :=
  ∀ (s : State) (i : Instr), s.run = .running → 2 ≤ s.pc → s.pc ≤ s.params.N - 1 → decode s.fetched = .ok i →
    step s = exec i { s with ir := s.fetched, pc := s.pc - 3 }

/-- R171: from `PC >= 2` the fetch phase loads IR with the cells at PC, PC - 1, PC - 2, of either region, and takes 3 from PC;
at PC 0 and PC 1 the step is the fetch fault at address -1, which leaves PC and IR unchanged. -/
def Obligations.FetchPhase : Prop :=
  ∀ s : State, s.Inv → s.run = .running →
    (2 ≤ s.pc → fetch s = .ok { s with ir := s.fetched, pc := s.pc - 3 }) ∧
    (s.pc ≤ 1 → ∃ t, step s = .next t ∧ Halts s t .addressFault (.address .fetch (-1)) ∧ t.ir = s.ir)

/-- R68, R172: an opcode cell outside 1..9 halts the machine with ILLEGAL_OPCODE, after PC was advanced. -/
def Obligations.IllegalOpcodeHalts : Prop :=
  ∀ s : State, s.Inv → s.run = .running → 2 ≤ s.pc → (s.fetched.op < 1 ∨ 9 < s.fetched.op) →
    ∃ t, step s = .next t ∧ Halts { s with pc := s.pc - 3 } t .illegalOpcode (.opcode s.fetched.op)

/-- R170, R182: a halted machine has no step, and a running one always has one: no state, instruction or data is refused. -/
def Obligations.StepExistsExactlyWhileRunning : Prop :=
  ∀ s : State, (s.run = .halted → step s = .fault .halted) ∧ (s.run = .running → ∃ t, step s = .next t)

/-- R184: a run of any length from any state either reaches a state or has met a halted one before; it is never refused. -/
def Obligations.RunsEndOnlyByHalting : Prop :=
  ∀ (k : Nat) (s : State),
    (∃ t, core.run k s = .next t) ∨
    (core.run k s = .fault .halted ∧ ∃ j t, j < k ∧ core.run j s = .next t ∧ t.run = .halted)

/-! ## Exceptions and halting -/

/-- R178: `raise` halts the machine with cause and information, emits `FATAL` and changes neither memory nor PC, BP, SP, the
input position or what the ports hold already. -/
def Obligations.RaiseHaltsAndKeepsTheRest : Prop :=
  ∀ (s : State) (t : Trap), Halts s (s.raise t) t.cause t.info

/-- R170, R176: what the execute phase left is committed only with PC in memory and BP and SP in the data region, and then it
becomes the state whole, with the trace record appended; the first of PC, BP, SP that is out of range is the fault, and the
instruction is discarded. -/
def Obligations.CheckPhaseTestsPcThenBpThenSp : Prop :=
  ∀ (name : TraceName) (s u : State),
    let pcIn := 0 ≤ u.pc ∧ u.pc ≤ u.params.N - 1
    let bpIn := 0 ≤ u.bp ∧ u.bp ≤ u.params.stackTop
    let spIn := 0 ≤ u.sp ∧ u.sp ≤ u.params.stackTop
    (¬ pcIn → ∃ t, finish name s (.ok u) = .next t ∧ Halts s t .addressFault (.address .regPC u.pc)) ∧
    (pcIn → ¬ bpIn → ∃ t, finish name s (.ok u) = .next t ∧ Halts s t .addressFault (.address .regBP u.bp)) ∧
    (pcIn → bpIn → ¬ spIn → ∃ t, finish name s (.ok u) = .next t ∧ Halts s t .addressFault (.address .regSP u.sp)) ∧
    (pcIn → bpIn → spIn → finish name s (.ok u) = .next { u with
      ports := u.ports ++ [.trace (.record ⟨name, s.ir.l, s.ir.m, u.pc, u.bp, u.sp, stackList u⟩)] })

/-- R178, R179: the halted state for each cause, relative to the state before the step, with the fault information of R173. -/
def Obligations.HaltedStateForEachCause : Prop :=
  ∀ s t : State, s.Inv → s.run = .running → step s = .next t → t.run = .halted →
    t.mem = s.mem ∧ t.bp = s.bp ∧
    match t.cause with
    | .none => False
    | .halt => t.pc = s.pc - 3 ∧ t.sp = s.sp ∧ t.inpos = s.inpos ∧
        t.ports = s.ports ++ [.trace (.record ⟨.sys, s.fetched.l, s.fetched.m, t.pc, t.bp, t.sp, stackList t⟩)]
    | .inputFault => t.pc = s.pc - 3 ∧ t.sp = s.sp - 1 ∧ t.inpos = s.inpos + 1 ∧ t.finfo = .none ∧
        t.ports = s.ports ++ [.output .prompt, .diag (.fatal .inputFault .none)]
    | .addressFault => t.sp = s.sp ∧ t.inpos = s.inpos ∧ t.ports = s.ports ++ [.diag (.fatal .addressFault t.finfo)] ∧
        ∃ kind a, t.finfo = .address kind a ∧ t.pc = if kind = .fetch then s.pc else s.pc - 3
    | .illegalOpcode => t.pc = s.pc - 3 ∧ t.sp = s.sp ∧ t.inpos = s.inpos ∧ t.finfo = .opcode s.fetched.op ∧
        t.ports = s.ports ++ [.diag (.fatal .illegalOpcode t.finfo)]
    | .illegalLevel => t.pc = s.pc - 3 ∧ t.sp = s.sp ∧ t.inpos = s.inpos ∧ t.finfo = .level s.fetched.l ∧
        t.ports = s.ports ++ [.diag (.fatal .illegalLevel t.finfo)]
    | .divideByZero => t.pc = s.pc - 3 ∧ t.sp = s.sp ∧ t.inpos = s.inpos ∧ t.finfo = .none ∧
        t.ports = s.ports ++ [.diag (.fatal .divideByZero .none)]
    | .divideOverflow => t.pc = s.pc - 3 ∧ t.sp = s.sp ∧ t.inpos = s.inpos ∧ t.finfo = .none ∧
        t.ports = s.ports ++ [.diag (.fatal .divideOverflow .none)]

/-- R174: a negative level on LOD, STO or CAL is ILLEGAL_LEVEL before any access, and nothing else raises it. -/
def Obligations.NegativeLevelIsIllegalOnLodStoCalOnly : Prop :=
  (∀ (s : State) (l m : Int), l < 0 →
    Traps (.lod l m) s .illegalLevel (.level l) ∧ Traps (.sto l m) s .illegalLevel (.level l) ∧
    Traps (.cal l m) s .illegalLevel (.level l)) ∧
  ∀ (i : Instr) (s t : State), s.cause ≠ .illegalLevel → exec i s = .next t → t.cause = .illegalLevel →
    ∃ l m, l < 0 ∧ (i = .lod l m ∨ i = .sto l m ∨ i = .cal l m)

/-- R137, R184: only a SYS with modifier 3 ends a run normally. -/
def Obligations.OnlyTheHaltCallEndsNormally : Prop :=
  ∀ s t : State, s.Inv → s.run = .running → step s = .next t → t.EndedNormally →
    ∃ l, decode s.fetched = .ok (.sysHalt l)

/-- R158, which the spec derives from R170: the events of one step, in order. A step that ends in a fault emits only `FATAL`,
but that an INPUT_FAULT has its prompt first; any other step emits what its execute phase does, then a trace record with the
fetched level and modifier and the registers and stack after the step (R156). In particular the ports only grow. -/
def Obligations.EventsOfOneStep : Prop :=
  ∀ s t : State, step s = .next t → ∃ events, t.ports = s.ports ++ events ∧
    ((∃ c i, events = [.diag (.fatal c i)] ∧ c ≠ .inputFault ∧ t.Faulted ∧ t.cause = c ∧ t.finfo = i) ∨
     (events = [.output .prompt, .diag (.fatal .inputFault .none)] ∧ t.Faulted ∧ t.cause = .inputFault ∧ t.finfo = .none) ∨
     (∃ first name, ¬ t.Faulted ∧ events = first ++
          [.trace (.record ⟨name, s.fetched.l, s.fetched.m, t.pc, t.bp, t.sp, stackList t⟩)] ∧
        (first = [] ∨ first = [.output .prompt] ∨ (∃ v, first = [.output (.print v)]) ∨
         (∃ m, first = [.diag (.badOpr m)]) ∨ ∃ m, first = [.diag (.badSys m)])))

/-! ## Reset -/

/-- R7, R32, R200: the reset state of every valid configuration and program of `W`-bit cells. -/
def Obligations.LoadGivesTheResetState : Prop :=
  ∀ (N W : Nat) (prog : List Triplet) (input : List InputItem),
    2 ≤ N → 3 * prog.length ≤ N - 2 → N ≤ 2 ^ (W - 1) → (∀ t ∈ prog, t.IsCells W) →
    ∃ s : State, State.load N W prog input = .next s ∧ s.params = ⟨N, W, prog.length, input⟩ ∧
      (∀ (i : Nat) (t : Triplet), prog[i]? = some t → s.mem.read (N - 1 - 3 * i) = t.op ∧ s.mem.read (N - 2 - 3 * i) = t.l ∧
        s.mem.read (N - 3 - 3 * i) = t.m) ∧
      (∀ a : Nat, a ≤ N - 1 - 3 * prog.length → s.mem.read a = 0) ∧
      s.pc = N - 1 ∧ s.sp = N - 1 - 3 * prog.length ∧ s.bp = s.sp - 1 ∧ s.run = .running ∧ s.cause = .none ∧ s.inpos = 0 ∧
      s.output = [] ∧ s.diagnostics = [] ∧ s.traces = [.header, .initial s.pc s.bp s.sp]

/-- R7: a configuration that breaks a constraint has no reset state. -/
def Obligations.InvalidConfigurationIsRefused : Prop :=
  ∀ (N W : Nat) (prog : List Triplet) (input : List InputItem),
    (N < 2 ∨ N - 2 < 3 * prog.length ∨ 2 ^ (W - 1) < N) → State.load N W prog input = .refused .badConfiguration

/-- R201: the bare machine after reset is a legitimate state (its IR and FINFO are the model's choice, logs 4 and 6). -/
def Obligations.ResetIsLegitimate : Prop := State.reset.Inv

/-- R32, R176: the reset state of every loaded program is legitimate (its IR and FINFO are the model's choice, logs 4 and 6). -/
def Obligations.LoadedStateIsLegitimate : Prop :=
  ∀ (N W : Nat) (prog : List Triplet) (input : List InputItem) (s : State), State.load N W prog input = .next s → s.Inv

/-! ## Invariants and whole-machine rules -/

/-- R20, R26, R28, R176: every step from a legitimate state gives a legitimate state. -/
def Obligations.StepKeepsTheInvariant : Prop :=
  ∀ s t : State, s.Inv → step s = .next t → t.Inv

/-- R47, R52: no step changes a cell of the code region, nor the run's parameters. -/
def Obligations.StepNeverChangesTheCode : Prop :=
  ∀ s t : State, s.Inv → step s = .next t →
    t.params = s.params ∧ ∀ a : Nat, s.params.codeLo ≤ a → t.mem.read a = s.mem.read a

/-- R20, R52: whatever a loaded program does, after any number of steps the state is legitimate and the code region still
holds the program that was loaded. -/
def Obligations.LoadedProgramSurvivesEveryRun : Prop :=
  ∀ (N W : Nat) (prog : List Triplet) (input : List InputItem) (k : Nat) (s t : State),
    State.load N W prog input = .next s → core.run k s = .next t →
    State.Inv t ∧ ∀ (i : Nat) (c : Triplet), prog[i]? = some c →
      Memory.read (State.mem t) (N - 1 - 3 * i) = c.op ∧ Memory.read (State.mem t) (N - 2 - 3 * i) = c.l ∧
      Memory.read (State.mem t) (N - 3 - 3 * i) = c.m

/-- R25, R30, R156: nothing that a step does depends on IR, FINFO, the ports' past or the free values drawn before: two
machines that agree on everything else step to two that agree again, and emit the same events. -/
def Obligations.PortsAndIrDoNotInfluenceExecution : Prop :=
  ∀ s t s' : State, SameMachine s t → step s = .next s' →
    ∃ t' events, step t = .next t' ∧ SameMachine s' t' ∧ s'.ports = s.ports ++ events ∧ t'.ports = t.ports ++ events ∧
      (s'.Faulted → t'.finfo = s'.finfo)

/-- R21, R23, R42: which instructions may change BP, move PC otherwise than in sequence, change SP, or write memory. -/
def Obligations.RegistersChangeOnlyWhereTheTableSays : Prop :=
  ∀ s t : State, s.Inv → s.run = .running → step s = .next t →
    (t.bp ≠ s.bp → ∃ l m, decode s.fetched = .ok (.cal l m) ∨ decode s.fetched = .ok (.rtn l)) ∧
    (t.pc ≠ s.pc - 3 → (∃ a, t.pc = s.pc ∧ t.run = .halted ∧ t.finfo = .address .fetch a) ∨
      ∃ l m, decode s.fetched = .ok (.cal l m) ∨ decode s.fetched = .ok (.rtn l) ∨ decode s.fetched = .ok (.jmp l m) ∨
        decode s.fetched = .ok (.jpc l m)) ∧
    (t.sp ≠ s.sp → ∃ i, decode s.fetched = .ok i ∧
      ∀ l m, i ≠ .cal l m ∧ i ≠ .jmp l m ∧ i ≠ .sysHalt l ∧ i ≠ .oprInvalid l m ∧ i ≠ .sysInvalid l m) ∧
    ((∃ a, t.mem.read a ≠ s.mem.read a) → ∃ i, decode s.fetched = .ok i ∧
      ∀ l m, i ≠ .inc l m ∧ i ≠ .rtn l ∧ i ≠ .jmp l m ∧ i ≠ .jpc l m ∧ i ≠ .sysPrint l ∧ i ≠ .sysHalt l ∧
        i ≠ .oprInvalid l m ∧ i ≠ .sysInvalid l m)

/-- R152, R153, R154: input is taken by SYS.READ alone; the output port grows by SYS.PRINT and SYS.READ alone. -/
def Obligations.InputAndOutputOnlyThroughSystemCalls : Prop :=
  ∀ s t : State, s.Inv → s.run = .running → step s = .next t →
    (t.inpos ≠ s.inpos → ∃ l, decode s.fetched = .ok (.sysRead l)) ∧
    (t.output ≠ s.output → ∃ l, decode s.fetched = .ok (.sysRead l) ∨ decode s.fetched = .ok (.sysPrint l))

/-- The canonical form of the model's memory (log 3): two memories in it that read alike everywhere are the same data. -/
def Obligations.CanonicalMemoriesThatReadAlikeAreEqual : Prop :=
  ∀ m m' : Memory, m.wf → m'.wf → (∀ a, m.read a = m'.read a) → m = m'

/-- R156: a trace record's stack list is `Mem[STACK_TOP], ..., Mem[SP]`, with the AR mark before the cell at BP when BP
differs from SP and from the initial boundary, which the model reads as STACK_TOP (log 13). -/
def Obligations.StackListRunsFromStackTopToSp : Prop :=
  ∀ s : State, s.sp ≤ s.params.stackTop →
    ((stackList s).length : Int) = s.params.stackTop - s.sp + 1 ∧
    ∀ (k : Nat) (e : StackEntry), (stackList s)[k]? = some e →
      e.value = s.mem.read (s.params.stackTop - k).toNat ∧
      (e.marked = true ↔ s.params.stackTop - k = s.bp ∧ s.bp ≠ s.sp ∧ s.bp ≠ s.params.stackTop)

/-! ## LIT and INC -/

/-- R80 -/
def Obligations.LitPushesItsLiteral : Prop :=
  ∀ (s : State) (l m : Int), s.Fetched →
    decode ⟨1, l, m⟩ = .ok (.lit l m) ∧
    (0 < s.sp → 0 ≤ s.pc → ∃ t, exec (.lit l m) s = .next t ∧ OneCell s t (s.sp - 1) m ∧ t.sp = s.sp - 1 ∧ t.pc = s.pc ∧
      t.bp = s.bp ∧ t.inpos = s.inpos ∧ Undisturbed s t ∧ Emits s t .lit []) ∧
    (s.sp = 0 → Traps (.lit l m) s .addressFault (.address .dataWrite (-1))) ∧
    (0 < s.sp → s.pc = -1 → Traps (.lit l m) s .addressFault (.address .regPC (-1)))

/-- R81 -/
def Obligations.IncMovesSpAndWritesNothing : Prop :=
  ∀ (s : State) (l m : Int), s.Fetched →
    decode ⟨6, l, m⟩ = .ok (.inc l m) ∧
    (0 ≤ s.pc → 0 ≤ s.sp - m → s.sp - m ≤ s.params.stackTop → ∃ t, exec (.inc l m) s = .next t ∧ SameCells s t ∧
      t.sp = s.sp - m ∧ t.pc = s.pc ∧ t.bp = s.bp ∧ t.inpos = s.inpos ∧ Undisturbed s t ∧ Emits s t .inc []) ∧
    (0 ≤ s.pc → (s.sp - m < 0 ∨ s.params.stackTop < s.sp - m) →
      Traps (.inc l m) s .addressFault (.address .regSP (s.sp - m))) ∧
    (s.pc = -1 → Traps (.inc l m) s .addressFault (.address .regPC (-1)))

/-! ## OPR -/

/-- R91, R92, R93: each with the form of R90, the exact result reduced to the cell range. -/
def Obligations.AddSubMulWrap : Prop :=
  ∀ (s : State) (l : Int), s.Fetched →
    decode ⟨2, l, 1⟩ = .ok (.add l) ∧ decode ⟨2, l, 2⟩ = .ok (.sub l) ∧ decode ⟨2, l, 3⟩ = .ok (.mul l) ∧
    (s.sp < s.params.stackTop → 0 ≤ s.pc →
      CompletesBinary (.add l) s .add (wrap s.params.W (s.second + s.top)) ∧
      CompletesBinary (.sub l) s .sub (wrap s.params.W (s.second - s.top)) ∧
      CompletesBinary (.mul l) s .mul (wrap s.params.W (s.second * s.top))) ∧
    ∀ i ∈ [Instr.add l, .sub l, .mul l],
      (s.sp = s.params.stackTop → Traps i s .addressFault (.address .dataRead (s.params.stackTop + 1))) ∧
      (s.sp < s.params.stackTop → s.pc = -1 → Traps i s .addressFault (.address .regPC (-1)))

/-- R94: the quotient toward zero (`Int.tdiv`); a divisor 0 and `INT_MIN / -1` are fatal, after both reads. -/
def Obligations.DivTruncatesTowardZero : Prop :=
  ∀ (s : State) (l : Int), s.Fetched →
    decode ⟨2, l, 4⟩ = .ok (.div l) ∧
    (s.sp < s.params.stackTop → 0 ≤ s.pc → s.top ≠ 0 → ¬ (s.second = intMin s.params.W ∧ s.top = -1) →
      CompletesBinary (.div l) s .div (Int.tdiv s.second s.top)) ∧
    (s.sp = s.params.stackTop → Traps (.div l) s .addressFault (.address .dataRead (s.params.stackTop + 1))) ∧
    (s.sp < s.params.stackTop → s.top = 0 → Traps (.div l) s .divideByZero .none) ∧
    (s.sp < s.params.stackTop → s.second = intMin s.params.W → s.top = -1 → Traps (.div l) s .divideOverflow .none) ∧
    (s.sp < s.params.stackTop → s.pc = -1 → s.top ≠ 0 → ¬ (s.second = intMin s.params.W ∧ s.top = -1) →
      Traps (.div l) s .addressFault (.address .regPC (-1)))

/-- R103: for every pair of cells that does not trap, the quotient the instruction stores is a cell, and with the remainder it
gives back the dividend, the remainder being smaller than the divisor and of the dividend's sign. -/
def Obligations.DivisionLawHolds : Prop :=
  ∀ (W : Nat) (a b q : Int), 1 ≤ W → IsCell W a → IsCell W b → divCells W a b = .ok q →
    IsCell W q ∧ ∃ r : Int, q * b + r = a ∧ |r| < |b| ∧ (0 < r → 0 < a) ∧ (r < 0 → a < 0)

/-- R95 to R100, R104: the six comparisons, signed, each leaving exactly 0 or 1 in the form of R90. -/
def Obligations.ComparisonsLeaveZeroOrOne : Prop :=
  ∀ (s : State) (l : Int), s.Fetched →
    decode ⟨2, l, 5⟩ = .ok (.eql l) ∧ decode ⟨2, l, 6⟩ = .ok (.neq l) ∧ decode ⟨2, l, 7⟩ = .ok (.lss l) ∧
    decode ⟨2, l, 8⟩ = .ok (.leq l) ∧ decode ⟨2, l, 9⟩ = .ok (.gtr l) ∧ decode ⟨2, l, 10⟩ = .ok (.geq l) ∧
    (s.sp < s.params.stackTop → 0 ≤ s.pc →
      CompletesBinary (.eql l) s .eql (if s.second = s.top then 1 else 0) ∧
      CompletesBinary (.neq l) s .neq (if s.second ≠ s.top then 1 else 0) ∧
      CompletesBinary (.lss l) s .lss (if s.second < s.top then 1 else 0) ∧
      CompletesBinary (.leq l) s .leq (if s.second ≤ s.top then 1 else 0) ∧
      CompletesBinary (.gtr l) s .gtr (if s.second > s.top then 1 else 0) ∧
      CompletesBinary (.geq l) s .geq (if s.second ≥ s.top then 1 else 0)) ∧
    ∀ i ∈ [Instr.eql l, .neq l, .lss l, .leq l, .gtr l, .geq l],
      (s.sp = s.params.stackTop → Traps i s .addressFault (.address .dataRead (s.params.stackTop + 1))) ∧
      (s.sp < s.params.stackTop → s.pc = -1 → Traps i s .addressFault (.address .regPC (-1)))

/-- R69, R101, R138: a reserved modifier of OPR or SYS emits one diagnostic and changes nothing else. -/
def Obligations.ReservedModifiersOnlyReport : Prop :=
  ∀ (s : State) (l m : Int), s.Fetched →
    ((m < 0 ∨ 10 < m) → decode ⟨2, l, m⟩ = .ok (.oprInvalid l m)) ∧
    ((m < 1 ∨ 3 < m) → decode ⟨9, l, m⟩ = .ok (.sysInvalid l m)) ∧
    (0 ≤ s.pc → ∃ t, exec (.oprInvalid l m) s = .next t ∧ SameCells s t ∧ t.pc = s.pc ∧ t.bp = s.bp ∧ t.sp = s.sp ∧
      t.inpos = s.inpos ∧ Undisturbed s t ∧ Emits s t .opr [.diag (.badOpr m)]) ∧
    (0 ≤ s.pc → ∃ t, exec (.sysInvalid l m) s = .next t ∧ SameCells s t ∧ t.pc = s.pc ∧ t.bp = s.bp ∧ t.sp = s.sp ∧
      t.inpos = s.inpos ∧ Undisturbed s t ∧ Emits s t .sys [.diag (.badSys m)]) ∧
    (s.pc = -1 → Traps (.oprInvalid l m) s .addressFault (.address .regPC (-1)) ∧
      Traps (.sysInvalid l m) s .addressFault (.address .regPC (-1)))

/-! ## LOD and STO -/

/-- R110: level 0 gives the start and reads nothing; a walk along a chain of data cells, each holding the address of the next,
ends at the chain's last address; a step at an address outside the data region is a data_read fault there; a negative level
is ILLEGAL_LEVEL. -/
def Obligations.BaseWalksTheStaticChain : Prop :=
  (∀ (s : State) (b : Int), base b 0 s = .ok b) ∧
  (∀ (s : State) (chain : Nat → Int) (k : Nat),
    (∀ j, j < k → 0 ≤ chain j ∧ chain j ≤ s.params.stackTop ∧ s.mem.read (chain j).toNat = chain (j + 1)) →
    base (chain 0) k s = .ok (chain k) ∧
    ((chain k < 0 ∨ s.params.stackTop < chain k) → ∀ extra : Nat,
      base (chain 0) (k + 1 + extra) s = .error ⟨.addressFault, .address .dataRead (chain k)⟩)) ∧
  (∀ (s : State) (b l : Int), l < 0 → base b l s = .error ⟨.illegalLevel, .level l⟩)

/-- R111 -/
def Obligations.LodPushesTheAddressedCell : Prop :=
  ∀ (s : State) (l m : Int), s.Fetched →
    decode ⟨3, l, m⟩ = .ok (.lod l m) ∧
    (∀ b, base s.bp l s = .ok b → 0 ≤ b - m → b - m ≤ s.params.stackTop →
      (0 < s.sp → 0 ≤ s.pc → ∃ t, exec (.lod l m) s = .next t ∧ OneCell s t (s.sp - 1) (s.mem.read (b - m).toNat) ∧
        t.sp = s.sp - 1 ∧ t.pc = s.pc ∧ t.bp = s.bp ∧ t.inpos = s.inpos ∧ Undisturbed s t ∧ Emits s t .lod []) ∧
      (s.sp = 0 → Traps (.lod l m) s .addressFault (.address .dataWrite (-1))) ∧
      (0 < s.sp → s.pc = -1 → Traps (.lod l m) s .addressFault (.address .regPC (-1)))) ∧
    (∀ b, base s.bp l s = .ok b → (b - m < 0 ∨ s.params.stackTop < b - m) →
      Traps (.lod l m) s .addressFault (.address .dataRead (b - m))) ∧
    (∀ tr, base s.bp l s = .error tr → Traps (.lod l m) s tr.cause tr.info)

/-- R112 -/
def Obligations.StoStoresTheTopAndPops : Prop :=
  ∀ (s : State) (l m : Int), s.Fetched →
    decode ⟨4, l, m⟩ = .ok (.sto l m) ∧
    (∀ b, base s.bp l s = .ok b → 0 ≤ b - m → b - m ≤ s.params.stackTop →
      (s.sp < s.params.stackTop → 0 ≤ s.pc → ∃ t, exec (.sto l m) s = .next t ∧ OneCell s t (b - m) s.top ∧
        t.sp = s.sp + 1 ∧ t.pc = s.pc ∧ t.bp = s.bp ∧ t.inpos = s.inpos ∧ Undisturbed s t ∧ Emits s t .sto []) ∧
      (s.sp = s.params.stackTop → 0 ≤ s.pc →
        Traps (.sto l m) s .addressFault (.address .regSP (s.params.stackTop + 1))) ∧
      (s.pc = -1 → Traps (.sto l m) s .addressFault (.address .regPC (-1)))) ∧
    (∀ b, base s.bp l s = .ok b → (b - m < 0 ∨ s.params.stackTop < b - m) →
      Traps (.sto l m) s .addressFault (.address .dataWrite (b - m))) ∧
    (∀ tr, base s.bp l s = .error tr → Traps (.sto l m) s tr.cause tr.info)

/-! ## Control transfer -/

/-- R22, R120. The saved return address is the post-fetch PC, as the pseudocode has it. For a post-fetch PC of -1, where R20's
'non-negative' says otherwise, the stored -1 and the completion are the model's choice (log 23). -/
def Obligations.CalBuildsTheRecordAndJumps : Prop :=
  ∀ (s : State) (l m : Int), s.Fetched →
    decode ⟨5, l, m⟩ = .ok (.cal l m) ∧
    (∀ sl, base s.bp l s = .ok sl →
      (3 ≤ s.sp → 0 ≤ m → m ≤ s.params.N - 1 → ∃ t, exec (.cal l m) s = .next t ∧
        (∀ b : Nat, t.mem.read b = if (b : Int) = s.sp - 1 then sl else if (b : Int) = s.sp - 2 then s.bp
          else if (b : Int) = s.sp - 3 then s.pc else s.mem.read b) ∧
        t.bp = s.sp - 1 ∧ t.pc = (s.params.N - 1) - m ∧ t.sp = s.sp ∧ t.inpos = s.inpos ∧ Undisturbed s t ∧
        Emits s t .cal []) ∧
      (s.sp ≤ 2 → Traps (.cal l m) s .addressFault (.address .dataWrite (-1))) ∧
      (3 ≤ s.sp → (m < 0 ∨ s.params.N - 1 < m) →
        Traps (.cal l m) s .addressFault (.address .regPC ((s.params.N - 1) - m)))) ∧
    (∀ tr, base s.bp l s = .error tr → Traps (.cal l m) s tr.cause tr.info)

/-- R121, with `bp1` and `pc1` the dynamic link and the return address of the current record. -/
def Obligations.RtnRestoresTheCaller : Prop :=
  ∀ (s : State) (l : Int), s.Fetched →
    let bp1 := s.mem.read (s.bp - 1).toNat
    let pc1 := s.mem.read (s.bp - 2).toNat
    let bpIn := 0 ≤ bp1 ∧ bp1 ≤ s.params.stackTop
    let pcIn := 0 ≤ pc1 ∧ pc1 ≤ s.params.N - 1
    decode ⟨2, l, 0⟩ = .ok (.rtn l) ∧
    (2 ≤ s.bp → pcIn → bpIn → s.bp < s.params.stackTop → ∃ t, exec (.rtn l) s = .next t ∧ SameCells s t ∧ t.sp = s.bp + 1 ∧
      t.bp = bp1 ∧ t.pc = pc1 ∧ t.inpos = s.inpos ∧ Undisturbed s t ∧ Emits s t .rtn []) ∧
    (s.bp ≤ 1 → Traps (.rtn l) s .addressFault (.address .dataRead (-1))) ∧
    (2 ≤ s.bp → ¬ pcIn → Traps (.rtn l) s .addressFault (.address .regPC pc1)) ∧
    (2 ≤ s.bp → pcIn → ¬ bpIn → Traps (.rtn l) s .addressFault (.address .regBP bp1)) ∧
    (2 ≤ s.bp → pcIn → bpIn → s.bp = s.params.stackTop →
      Traps (.rtn l) s .addressFault (.address .regSP (s.params.stackTop + 1)))

/-- R122 -/
def Obligations.JmpGoesToItsTarget : Prop :=
  ∀ (s : State) (l m : Int), s.Fetched →
    decode ⟨7, l, m⟩ = .ok (.jmp l m) ∧
    (0 ≤ m → m ≤ s.params.N - 1 → ∃ t, exec (.jmp l m) s = .next t ∧ SameCells s t ∧ t.pc = (s.params.N - 1) - m ∧
      t.bp = s.bp ∧ t.sp = s.sp ∧ t.inpos = s.inpos ∧ Undisturbed s t ∧ Emits s t .jmp []) ∧
    ((m < 0 ∨ s.params.N - 1 < m) → Traps (.jmp l m) s .addressFault (.address .regPC ((s.params.N - 1) - m)))

/-- R123 -/
def Obligations.JpcPopsAndBranchesOnZero : Prop :=
  ∀ (s : State) (l m : Int), s.Fetched →
    let next := if s.top = 0 then (s.params.N - 1) - m else s.pc
    decode ⟨8, l, m⟩ = .ok (.jpc l m) ∧
    (s.sp < s.params.stackTop → 0 ≤ next → next ≤ s.params.N - 1 → ∃ t, exec (.jpc l m) s = .next t ∧ SameCells s t ∧
      t.pc = next ∧ t.sp = s.sp + 1 ∧ t.bp = s.bp ∧ t.inpos = s.inpos ∧ Undisturbed s t ∧ Emits s t .jpc []) ∧
    ((next < 0 ∨ s.params.N - 1 < next) → Traps (.jpc l m) s .addressFault (.address .regPC next)) ∧
    (s.sp = s.params.stackTop → 0 ≤ next → next ≤ s.params.N - 1 →
      Traps (.jpc l m) s .addressFault (.address .regSP (s.params.stackTop + 1)))

/-- R120 and R121 together, which R125 infers from them: a CAL and the matching RTN restore BP, SP and the PC that follows the CAL, whatever ran between them, as long as it
left the two saved cells, came back to the record's BP, and nothing faulted. -/
def Obligations.CalThenRtnRestoresTheRegisters : Prop :=
  ∀ (s called t : State) (l m l' : Int), s.Fetched → 0 ≤ s.pc → exec (.cal l m) s = .next called → called.run = .running →
    t.Fetched → t.params = s.params → t.bp = s.sp - 1 →
    t.mem.read (s.sp - 2).toNat = called.mem.read (s.sp - 2).toNat →
    t.mem.read (s.sp - 3).toNat = called.mem.read (s.sp - 3).toNat →
    ∃ u, exec (.rtn l') t = .next u ∧ u.run = .running ∧ u.pc = s.pc ∧ u.bp = s.bp ∧ u.sp = s.sp

/-- R122, R184: a JMP to its own address never halts: after any number `k` of steps the machine is exactly as it was, but for
IR, which holds the fetched JMP after the first step, and the ports, which have the JMP's trace record `k` times more. -/
def Obligations.SelfJumpNeverHalts : Prop :=
  ∀ (s : State) (l : Int) (k : Nat), s.Inv → s.run = .running → 2 ≤ s.pc →
    s.fetched = ⟨7, l, (s.params.N - 1) - s.pc⟩ →
    core.run k s = .next ({ s with
      ir := if k = 0 then s.ir else s.fetched
      ports := s.ports ++ List.replicate k
        (.trace (.record ⟨.jmp, l, (s.params.N - 1) - s.pc, s.pc, s.bp, s.sp, stackList s⟩)) } : State)

/-! ## System calls -/

/-- R135 -/
def Obligations.PrintPopsAndOutputs : Prop :=
  ∀ (s : State) (l : Int), s.Fetched →
    decode ⟨9, l, 1⟩ = .ok (.sysPrint l) ∧
    (s.sp < s.params.stackTop → 0 ≤ s.pc → ∃ t, exec (.sysPrint l) s = .next t ∧ SameCells s t ∧ t.sp = s.sp + 1 ∧
      t.pc = s.pc ∧ t.bp = s.bp ∧ t.inpos = s.inpos ∧ Undisturbed s t ∧ Emits s t .sys [.output (.print s.top)]) ∧
    (s.sp = s.params.stackTop → 0 ≤ s.pc →
      Traps (.sysPrint l) s .addressFault (.address .regSP (s.params.stackTop + 1))) ∧
    (s.pc = -1 → Traps (.sysPrint l) s .addressFault (.address .regPC (-1)))

/-- R136, R152: the next item of the input is a number that fits a cell, or the read fails. -/
def Obligations.ReadPromptsAndPushes : Prop :=
  ∀ (s : State) (l : Int), s.Fetched →
    decode ⟨9, l, 2⟩ = .ok (.sysRead l) ∧
    (∀ v, s.params.input[s.inpos]? = some (.int v) → IsCell s.params.W v → 0 < s.sp →
      (0 ≤ s.pc → ∃ t, exec (.sysRead l) s = .next t ∧ OneCell s t (s.sp - 1) v ∧ t.sp = s.sp - 1 ∧ t.pc = s.pc ∧ t.bp = s.bp ∧
        t.inpos = s.inpos + 1 ∧ Undisturbed s t ∧ Emits s t .sys [.output .prompt]) ∧
      (s.pc = -1 → Traps (.sysRead l) s .addressFault (.address .regPC (-1)))) ∧
    ((∀ v, s.params.input[s.inpos]? = some (.int v) → ¬ IsCell s.params.W v) → 0 < s.sp →
      ∃ t, exec (.sysRead l) s = .next t ∧ t.run = .halted ∧ t.cause = .inputFault ∧ t.finfo = .none ∧ t.params = s.params ∧
        t.mem = s.mem ∧ t.pc = s.pc ∧ t.bp = s.bp ∧ t.sp = s.sp - 1 ∧ t.inpos = s.inpos + 1 ∧
        t.ports = s.ports ++ [.output .prompt, .diag (.fatal .inputFault .none)]) ∧
    (s.sp = 0 → Traps (.sysRead l) s .addressFault (.address .dataWrite (-1)))

/-- R137. Nothing is said of IR and FINFO, which the spec leaves unspecified after a HALT. -/
def Obligations.HaltEndsTheRun : Prop :=
  ∀ (s : State) (l : Int), s.Fetched →
    decode ⟨9, l, 3⟩ = .ok (.sysHalt l) ∧
    (0 ≤ s.pc → ∃ t, exec (.sysHalt l) s = .next t ∧ t.run = .halted ∧ t.cause = .halt ∧ t.params = s.params ∧ t.mem = s.mem ∧
      t.pc = s.pc ∧ t.bp = s.bp ∧ t.sp = s.sp ∧ t.inpos = s.inpos ∧ Emits s t .sys []) ∧
    (s.pc = -1 → Traps (.sysHalt l) s .addressFault (.address .regPC (-1)))
end

