-- ==== Sys2Proof/Laws/Decode.lean ====
section
/-! SUPPORT. The decoder at each opcode, at the reserved selectors and at the illegal opcodes. -/

namespace Sys2Proof

theorem decode_lit (l m : Int) : decode ⟨1, l, m⟩ = .ok (.lit l m) := rfl
theorem decode_opr (l m : Int) : decode ⟨2, l, m⟩ = .ok (decodeOpr l m) := rfl
theorem decode_lod (l m : Int) : decode ⟨3, l, m⟩ = .ok (.lod l m) := rfl
theorem decode_sto (l m : Int) : decode ⟨4, l, m⟩ = .ok (.sto l m) := rfl
theorem decode_cal (l m : Int) : decode ⟨5, l, m⟩ = .ok (.cal l m) := rfl
theorem decode_inc (l m : Int) : decode ⟨6, l, m⟩ = .ok (.inc l m) := rfl
theorem decode_jmp (l m : Int) : decode ⟨7, l, m⟩ = .ok (.jmp l m) := rfl
theorem decode_jpc (l m : Int) : decode ⟨8, l, m⟩ = .ok (.jpc l m) := rfl
theorem decode_sys (l m : Int) : decode ⟨9, l, m⟩ = .ok (decodeSys l m) := rfl

theorem decodeOpr_reserved {l m : Int} (h : IsReservedOpr m) : decodeOpr l m = .oprInvalid l m := by
  unfold decodeOpr
  repeat rw [if_neg (by omega)]

theorem decodeSys_reserved {l m : Int} (h : IsReservedSys m) : decodeSys l m = .sysInvalid l m := by
  unfold decodeSys
  repeat rw [if_neg (by omega)]

theorem decode_illegal {t : Triplet} (h : t.op < 1 ∨ 9 < t.op) : decode t = .error (.illegalOpcode t.op) := by
  unfold decode
  repeat rw [if_neg (by omega)]

/-- The one reason not to decode is the opcode cell. -/
theorem decode_error_op {t : Triplet} {op : Int} (h : decode t = .error (.illegalOpcode op)) : op = t.op := by
  unfold decode at h
  repeat' split at h
  all_goals simp_all

end Sys2Proof
end

