-- ==== Sys2Proof/Laws/Memory.lean ====
section
/-! SUPPORT. The laws of the raw cells: a read after a write, and the canonical form every write keeps. -/

namespace Sys2Proof.Machine

theorem Memory.read_nil (a : Nat) : Memory.read [] a = 0 := rfl

theorem Memory.read_cons (b : Nat) (w : Int) (m : Memory) (a : Nat) :
    Memory.read ((b, w) :: m) a = if b = a then w else m.read a := rfl

theorem Memory.wf_nil : Memory.wf [] := ⟨List.Pairwise.nil, by simp⟩

theorem Memory.wf_cons {b : Nat} {w : Int} {m : Memory} :
    Memory.wf ((b, w) :: m) ↔ (∀ x ∈ m, b < x.1) ∧ w ≠ 0 ∧ m.wf := by
  simp only [Memory.wf, Memory.unlisted, List.pairwise_cons, List.mem_cons, forall_eq_or_imp]
  tauto

/-- An address below every listed one is unlisted. -/
theorem Memory.read_of_lt {m : Memory} {a : Nat} (h : ∀ x ∈ m, a < x.1) : m.read a = 0 := by
  induction m with
  | nil => rfl
  | cons x m ih =>
    obtain ⟨b, w⟩ := x
    simp only [List.mem_cons, forall_eq_or_imp] at h
    rw [Memory.read_cons, if_neg (by omega), ih h.2]

theorem Memory.read_list {m : Memory} {a : Nat} (h : ∀ x ∈ m, a < x.1) (v : Int) (b : Nat) :
    (Memory.list a v m).read b = if b = a then v else m.read b := by
  unfold Memory.list Memory.unlisted
  split
  · next hv =>
    split
    · next hb => rw [hb, hv, Memory.read_of_lt h]
    · rfl
  · rw [Memory.read_cons]
    simp only [eq_comm]

theorem Memory.mem_list {x : Nat × Int} {a : Nat} {v : Int} {m : Memory} (h : x ∈ Memory.list a v m) :
    x = (a, v) ∨ x ∈ m := by
  unfold Memory.list at h
  split at h
  · exact .inr h
  · simpa using h

/-- Every cell listed after a write is the written one or was listed before. -/
theorem Memory.mem_write {x : Nat × Int} {m : Memory} {a : Nat} {v : Int} (h : x ∈ m.write a v) :
    x = (a, v) ∨ x ∈ m := by
  induction m with
  | nil => exact Memory.mem_list h
  | cons y m ih =>
    obtain ⟨b, w⟩ := y
    unfold Memory.write at h
    split at h
    · exact Memory.mem_list h
    · split at h
      · exact (Memory.mem_list h).imp_right (List.mem_cons_of_mem _)
      · rcases List.mem_cons.mp h with h | h
        · exact .inr (h ▸ List.mem_cons_self)
        · exact (ih h).imp_right (List.mem_cons_of_mem _)

/-- A read after a write: the written cell gives the value, every other cell what it gave. -/
theorem Memory.read_write {m : Memory} (h : m.wf) (a : Nat) (v : Int) (b : Nat) :
    (m.write a v).read b = if b = a then v else m.read b := by
  induction m with
  | nil => exact Memory.read_list (by simp) v b
  | cons x m ih =>
    obtain ⟨c, w⟩ := x
    obtain ⟨hlt, hw, hm⟩ := Memory.wf_cons.mp h
    unfold Memory.write
    split
    · next hac =>
      refine Memory.read_list (fun y hy => ?_) v b
      rcases List.mem_cons.mp hy with rfl | hy
      · exact hac
      · exact hac.trans (hlt y hy)
    · split
      · next hac =>
        subst hac
        rw [Memory.read_list hlt, Memory.read_cons]
        split <;> simp_all [eq_comm]
      · next h1 h2 =>
        rw [Memory.read_cons, Memory.read_cons, ih hm]
        split <;> split <;> first | rfl | omega

theorem Memory.wf_list {m : Memory} {a : Nat} (h : ∀ x ∈ m, a < x.1) (hm : m.wf) (v : Int) :
    (Memory.list a v m).wf := by
  unfold Memory.list Memory.unlisted
  split
  · exact hm
  · next hv => exact Memory.wf_cons.mpr ⟨h, hv, hm⟩

/-- A write keeps the canonical form. -/
theorem Memory.wf_write {m : Memory} (h : m.wf) (a : Nat) (v : Int) : (m.write a v).wf := by
  induction m with
  | nil => exact Memory.wf_list (by simp) h v
  | cons x m ih =>
    obtain ⟨c, w⟩ := x
    obtain ⟨hlt, hw, hm⟩ := Memory.wf_cons.mp h
    unfold Memory.write
    split
    · next hac =>
      refine Memory.wf_list (fun y hy => ?_) h v
      rcases List.mem_cons.mp hy with rfl | hy
      · exact hac
      · exact hac.trans (hlt y hy)
    · split
      · next hac => exact Memory.wf_list (hac ▸ hlt) hm v
      · next h1 h2 =>
        refine Memory.wf_cons.mpr ⟨fun y hy => ?_, hw, ih hm⟩
        rcases Memory.mem_write hy with rfl | hy
        · simp only; omega
        · exact hlt y hy

/-- A write of a cell value inside memory keeps every listed cell inside memory and `W` bits wide. -/
theorem Memory.fits_write {N W : Nat} {m : Memory} (h : m.Fits N W) {a : Nat} {v : Int} (ha : a < N) (hv : IsCell W v) :
    (m.write a v).Fits N W := by
  intro x hx
  rcases Memory.mem_write hx with rfl | hx
  · exact ⟨ha, hv⟩
  · exact h x hx

end Sys2Proof.Machine
end

