-- ==== Sys2Proof/Laws/Load.lean ====
section
/-! SUPPORT. What the loader leaves in memory. -/

namespace Sys2Proof.Machine

theorem placeProgram_wf (N : Nat) (prog : List Triplet) : ∀ (i : Nat) (m : Memory), m.wf → (placeProgram N i prog m).wf := by
  induction prog with
  | nil => intro i m h; exact h
  | cons t rest ih => intro i m h; exact ih _ _ (Memory.wf_write (Memory.wf_write (Memory.wf_write h _ _) _ _) _ _)

theorem placeProgram_outside (N : Nat) (prog : List Triplet) : ∀ (i : Nat) (m : Memory), m.wf → 3 * (i + prog.length) ≤ N → ∀ a, (a + 3 * (i + prog.length) < N ∨ N ≤ a + 3 * i) → (placeProgram N i prog m).read a = m.read a := by
  induction prog with
  | nil => intros; rfl
  | cons t rest ih =>
    intro i m h hN a ha
    simp only [List.length_cons] at hN ha
    have w1 := Memory.wf_write h (N - 1 - 3 * i) t.op
    have w2 := Memory.wf_write w1 (N - 2 - 3 * i) t.l
    have w3 := Memory.wf_write w2 (N - 3 - 3 * i) t.m
    unfold placeProgram
    rw [ih _ _ w3 (by omega) a (by omega), Memory.read_write w2, if_neg (by omega), Memory.read_write w1, if_neg (by omega), Memory.read_write h, if_neg (by omega)]

theorem placeProgram_inside (N : Nat) (prog : List Triplet) : ∀ (i : Nat) (m : Memory), m.wf → 3 * (i + prog.length) ≤ N → ∀ j t, prog[j]? = some t →
   (placeProgram N i prog m).read (N - 1 - 3 * (i + j)) = t.op ∧ (placeProgram N i prog m).read (N - 2 - 3 * (i + j)) = t.l ∧ (placeProgram N i prog m).read (N - 3 - 3 * (i + j)) = t.m := by
  induction prog with
  | nil => intro i m _ _ j t h; simp at h
  | cons t rest ih =>
    intro i m h hN j u hj
    simp only [List.length_cons] at hN
    have w1 := Memory.wf_write h (N - 1 - 3 * i) t.op
    have w2 := Memory.wf_write w1 (N - 2 - 3 * i) t.l
    have w3 := Memory.wf_write w2 (N - 3 - 3 * i) t.m
    cases j with
    | zero =>
      simp at hj; subst hj
      unfold placeProgram
      refine ⟨?_, ?_, ?_⟩ <;> rw [placeProgram_outside N rest (i+1) _ w3 (by omega) _ (by omega)]
      · rw [Memory.read_write w2, if_neg (by omega), Memory.read_write w1, if_neg (by omega), Memory.read_write h, if_pos (by omega)]
      · rw [Memory.read_write w2, if_neg (by omega), Memory.read_write w1, if_pos (by omega)]
      · rw [Memory.read_write w2, if_pos (by omega)]
    | succ j =>
      simp at hj
      have := ih (i + 1) _ w3 (by omega) j u hj
      unfold placeProgram
      rw [show i + (j + 1) = i + 1 + j by omega]
      exact this

theorem placeProgram_fits (N W : Nat) (prog : List Triplet) : ∀ (i : Nat) (m : Memory), m.Fits N W → 3 * (i + prog.length) ≤ N → (∀ t ∈ prog, t.IsCells W) → (placeProgram N i prog m).Fits N W := by
  induction prog with
  | nil => intro i m h _ _; exact h
  | cons t rest ih => 
    intro i m h hN hc
    simp only [List.length_cons] at hN
    have ht := hc t List.mem_cons_self
    exact ih _ _ (Memory.fits_write (Memory.fits_write (Memory.fits_write h (by omega) ht.1) (by omega) ht.2.1) (by omega) ht.2.2) (by omega) (fun x hx => hc x (List.mem_cons_of_mem _ hx))

end Sys2Proof.Machine
end

