-- ==== Sys2Proof/Laws/State.lean ====
section
/-! SUPPORT. One lemma per field and update of the state, true by unfolding, so that no later proof opens a record. -/

namespace Sys2Proof.Machine

@[simp] theorem State.setMem_params (s : State) (m : Memory) : (s.setMem m).params = s.params := rfl
@[simp] theorem State.setMem_mem (s : State) (m : Memory) : (s.setMem m).mem = m := rfl
@[simp] theorem State.setMem_pc (s : State) (m : Memory) : (s.setMem m).pc = s.pc := rfl
@[simp] theorem State.setMem_bp (s : State) (m : Memory) : (s.setMem m).bp = s.bp := rfl
@[simp] theorem State.setMem_sp (s : State) (m : Memory) : (s.setMem m).sp = s.sp := rfl
@[simp] theorem State.setMem_ir (s : State) (m : Memory) : (s.setMem m).ir = s.ir := rfl
@[simp] theorem State.setMem_run (s : State) (m : Memory) : (s.setMem m).run = s.run := rfl
@[simp] theorem State.setMem_cause (s : State) (m : Memory) : (s.setMem m).cause = s.cause := rfl
@[simp] theorem State.setMem_finfo (s : State) (m : Memory) : (s.setMem m).finfo = s.finfo := rfl
@[simp] theorem State.setMem_inpos (s : State) (m : Memory) : (s.setMem m).inpos = s.inpos := rfl
@[simp] theorem State.setMem_ports (s : State) (m : Memory) : (s.setMem m).ports = s.ports := rfl
@[simp] theorem State.setMem_unspec (s : State) (m : Memory) : (s.setMem m).unspec = s.unspec := rfl

@[simp] theorem State.setPc_params (s : State) (v : Int) : (s.setPc v).params = s.params := rfl
@[simp] theorem State.setPc_mem (s : State) (v : Int) : (s.setPc v).mem = s.mem := rfl
@[simp] theorem State.setPc_pc (s : State) (v : Int) : (s.setPc v).pc = v := rfl
@[simp] theorem State.setPc_bp (s : State) (v : Int) : (s.setPc v).bp = s.bp := rfl
@[simp] theorem State.setPc_sp (s : State) (v : Int) : (s.setPc v).sp = s.sp := rfl
@[simp] theorem State.setPc_ir (s : State) (v : Int) : (s.setPc v).ir = s.ir := rfl
@[simp] theorem State.setPc_run (s : State) (v : Int) : (s.setPc v).run = s.run := rfl
@[simp] theorem State.setPc_cause (s : State) (v : Int) : (s.setPc v).cause = s.cause := rfl
@[simp] theorem State.setPc_finfo (s : State) (v : Int) : (s.setPc v).finfo = s.finfo := rfl
@[simp] theorem State.setPc_inpos (s : State) (v : Int) : (s.setPc v).inpos = s.inpos := rfl
@[simp] theorem State.setPc_ports (s : State) (v : Int) : (s.setPc v).ports = s.ports := rfl
@[simp] theorem State.setPc_unspec (s : State) (v : Int) : (s.setPc v).unspec = s.unspec := rfl

@[simp] theorem State.setBp_params (s : State) (v : Int) : (s.setBp v).params = s.params := rfl
@[simp] theorem State.setBp_mem (s : State) (v : Int) : (s.setBp v).mem = s.mem := rfl
@[simp] theorem State.setBp_pc (s : State) (v : Int) : (s.setBp v).pc = s.pc := rfl
@[simp] theorem State.setBp_bp (s : State) (v : Int) : (s.setBp v).bp = v := rfl
@[simp] theorem State.setBp_sp (s : State) (v : Int) : (s.setBp v).sp = s.sp := rfl
@[simp] theorem State.setBp_ir (s : State) (v : Int) : (s.setBp v).ir = s.ir := rfl
@[simp] theorem State.setBp_run (s : State) (v : Int) : (s.setBp v).run = s.run := rfl
@[simp] theorem State.setBp_cause (s : State) (v : Int) : (s.setBp v).cause = s.cause := rfl
@[simp] theorem State.setBp_finfo (s : State) (v : Int) : (s.setBp v).finfo = s.finfo := rfl
@[simp] theorem State.setBp_inpos (s : State) (v : Int) : (s.setBp v).inpos = s.inpos := rfl
@[simp] theorem State.setBp_ports (s : State) (v : Int) : (s.setBp v).ports = s.ports := rfl
@[simp] theorem State.setBp_unspec (s : State) (v : Int) : (s.setBp v).unspec = s.unspec := rfl

@[simp] theorem State.setSp_params (s : State) (v : Int) : (s.setSp v).params = s.params := rfl
@[simp] theorem State.setSp_mem (s : State) (v : Int) : (s.setSp v).mem = s.mem := rfl
@[simp] theorem State.setSp_pc (s : State) (v : Int) : (s.setSp v).pc = s.pc := rfl
@[simp] theorem State.setSp_bp (s : State) (v : Int) : (s.setSp v).bp = s.bp := rfl
@[simp] theorem State.setSp_sp (s : State) (v : Int) : (s.setSp v).sp = v := rfl
@[simp] theorem State.setSp_ir (s : State) (v : Int) : (s.setSp v).ir = s.ir := rfl
@[simp] theorem State.setSp_run (s : State) (v : Int) : (s.setSp v).run = s.run := rfl
@[simp] theorem State.setSp_cause (s : State) (v : Int) : (s.setSp v).cause = s.cause := rfl
@[simp] theorem State.setSp_finfo (s : State) (v : Int) : (s.setSp v).finfo = s.finfo := rfl
@[simp] theorem State.setSp_inpos (s : State) (v : Int) : (s.setSp v).inpos = s.inpos := rfl
@[simp] theorem State.setSp_ports (s : State) (v : Int) : (s.setSp v).ports = s.ports := rfl
@[simp] theorem State.setSp_unspec (s : State) (v : Int) : (s.setSp v).unspec = s.unspec := rfl

@[simp] theorem State.setIr_params (s : State) (t : Triplet) : (s.setIr t).params = s.params := rfl
@[simp] theorem State.setIr_mem (s : State) (t : Triplet) : (s.setIr t).mem = s.mem := rfl
@[simp] theorem State.setIr_pc (s : State) (t : Triplet) : (s.setIr t).pc = s.pc := rfl
@[simp] theorem State.setIr_bp (s : State) (t : Triplet) : (s.setIr t).bp = s.bp := rfl
@[simp] theorem State.setIr_sp (s : State) (t : Triplet) : (s.setIr t).sp = s.sp := rfl
@[simp] theorem State.setIr_ir (s : State) (t : Triplet) : (s.setIr t).ir = t := rfl
@[simp] theorem State.setIr_run (s : State) (t : Triplet) : (s.setIr t).run = s.run := rfl
@[simp] theorem State.setIr_cause (s : State) (t : Triplet) : (s.setIr t).cause = s.cause := rfl
@[simp] theorem State.setIr_finfo (s : State) (t : Triplet) : (s.setIr t).finfo = s.finfo := rfl
@[simp] theorem State.setIr_inpos (s : State) (t : Triplet) : (s.setIr t).inpos = s.inpos := rfl
@[simp] theorem State.setIr_ports (s : State) (t : Triplet) : (s.setIr t).ports = s.ports := rfl
@[simp] theorem State.setIr_unspec (s : State) (t : Triplet) : (s.setIr t).unspec = s.unspec := rfl

@[simp] theorem State.setFinfo_params (s : State) (i : FaultInfo) : (s.setFinfo i).params = s.params := rfl
@[simp] theorem State.setFinfo_mem (s : State) (i : FaultInfo) : (s.setFinfo i).mem = s.mem := rfl
@[simp] theorem State.setFinfo_pc (s : State) (i : FaultInfo) : (s.setFinfo i).pc = s.pc := rfl
@[simp] theorem State.setFinfo_bp (s : State) (i : FaultInfo) : (s.setFinfo i).bp = s.bp := rfl
@[simp] theorem State.setFinfo_sp (s : State) (i : FaultInfo) : (s.setFinfo i).sp = s.sp := rfl
@[simp] theorem State.setFinfo_ir (s : State) (i : FaultInfo) : (s.setFinfo i).ir = s.ir := rfl
@[simp] theorem State.setFinfo_run (s : State) (i : FaultInfo) : (s.setFinfo i).run = s.run := rfl
@[simp] theorem State.setFinfo_cause (s : State) (i : FaultInfo) : (s.setFinfo i).cause = s.cause := rfl
@[simp] theorem State.setFinfo_finfo (s : State) (i : FaultInfo) : (s.setFinfo i).finfo = i := rfl
@[simp] theorem State.setFinfo_inpos (s : State) (i : FaultInfo) : (s.setFinfo i).inpos = s.inpos := rfl
@[simp] theorem State.setFinfo_ports (s : State) (i : FaultInfo) : (s.setFinfo i).ports = s.ports := rfl
@[simp] theorem State.setFinfo_unspec (s : State) (i : FaultInfo) : (s.setFinfo i).unspec = s.unspec := rfl

@[simp] theorem State.setInpos_params (s : State) (k : Nat) : (s.setInpos k).params = s.params := rfl
@[simp] theorem State.setInpos_mem (s : State) (k : Nat) : (s.setInpos k).mem = s.mem := rfl
@[simp] theorem State.setInpos_pc (s : State) (k : Nat) : (s.setInpos k).pc = s.pc := rfl
@[simp] theorem State.setInpos_bp (s : State) (k : Nat) : (s.setInpos k).bp = s.bp := rfl
@[simp] theorem State.setInpos_sp (s : State) (k : Nat) : (s.setInpos k).sp = s.sp := rfl
@[simp] theorem State.setInpos_ir (s : State) (k : Nat) : (s.setInpos k).ir = s.ir := rfl
@[simp] theorem State.setInpos_run (s : State) (k : Nat) : (s.setInpos k).run = s.run := rfl
@[simp] theorem State.setInpos_cause (s : State) (k : Nat) : (s.setInpos k).cause = s.cause := rfl
@[simp] theorem State.setInpos_finfo (s : State) (k : Nat) : (s.setInpos k).finfo = s.finfo := rfl
@[simp] theorem State.setInpos_inpos (s : State) (k : Nat) : (s.setInpos k).inpos = k := rfl
@[simp] theorem State.setInpos_ports (s : State) (k : Nat) : (s.setInpos k).ports = s.ports := rfl
@[simp] theorem State.setInpos_unspec (s : State) (k : Nat) : (s.setInpos k).unspec = s.unspec := rfl

@[simp] theorem State.emit_params (s : State) (e : Event) : (s.emit e).params = s.params := rfl
@[simp] theorem State.emit_mem (s : State) (e : Event) : (s.emit e).mem = s.mem := rfl
@[simp] theorem State.emit_pc (s : State) (e : Event) : (s.emit e).pc = s.pc := rfl
@[simp] theorem State.emit_bp (s : State) (e : Event) : (s.emit e).bp = s.bp := rfl
@[simp] theorem State.emit_sp (s : State) (e : Event) : (s.emit e).sp = s.sp := rfl
@[simp] theorem State.emit_ir (s : State) (e : Event) : (s.emit e).ir = s.ir := rfl
@[simp] theorem State.emit_run (s : State) (e : Event) : (s.emit e).run = s.run := rfl
@[simp] theorem State.emit_cause (s : State) (e : Event) : (s.emit e).cause = s.cause := rfl
@[simp] theorem State.emit_finfo (s : State) (e : Event) : (s.emit e).finfo = s.finfo := rfl
@[simp] theorem State.emit_inpos (s : State) (e : Event) : (s.emit e).inpos = s.inpos := rfl
@[simp] theorem State.emit_ports (s : State) (e : Event) : (s.emit e).ports = s.ports ++ [e] := rfl
@[simp] theorem State.emit_unspec (s : State) (e : Event) : (s.emit e).unspec = s.unspec := rfl

@[simp] theorem State.endRun_params (s : State) (c : Cause) : (s.endRun c).params = s.params := rfl
@[simp] theorem State.endRun_mem (s : State) (c : Cause) : (s.endRun c).mem = s.mem := rfl
@[simp] theorem State.endRun_pc (s : State) (c : Cause) : (s.endRun c).pc = s.pc := rfl
@[simp] theorem State.endRun_bp (s : State) (c : Cause) : (s.endRun c).bp = s.bp := rfl
@[simp] theorem State.endRun_sp (s : State) (c : Cause) : (s.endRun c).sp = s.sp := rfl
@[simp] theorem State.endRun_ir (s : State) (c : Cause) : (s.endRun c).ir = unspecifiedIr s.params.W s.unspec := rfl
@[simp] theorem State.endRun_run (s : State) (c : Cause) : (s.endRun c).run = .halted := rfl
@[simp] theorem State.endRun_cause (s : State) (c : Cause) : (s.endRun c).cause = c := rfl
@[simp] theorem State.endRun_finfo (s : State) (c : Cause) : (s.endRun c).finfo = s.finfo := rfl
@[simp] theorem State.endRun_inpos (s : State) (c : Cause) : (s.endRun c).inpos = s.inpos := rfl
@[simp] theorem State.endRun_ports (s : State) (c : Cause) : (s.endRun c).ports = s.ports := rfl
@[simp] theorem State.endRun_unspec (s : State) (c : Cause) : (s.endRun c).unspec = s.unspec + 3 := rfl

@[simp] theorem State.raise_params (s : State) (t : Trap) : (s.raise t).params = s.params := rfl
@[simp] theorem State.raise_mem (s : State) (t : Trap) : (s.raise t).mem = s.mem := rfl
@[simp] theorem State.raise_pc (s : State) (t : Trap) : (s.raise t).pc = s.pc := rfl
@[simp] theorem State.raise_bp (s : State) (t : Trap) : (s.raise t).bp = s.bp := rfl
@[simp] theorem State.raise_sp (s : State) (t : Trap) : (s.raise t).sp = s.sp := rfl
@[simp] theorem State.raise_ir (s : State) (t : Trap) : (s.raise t).ir = unspecifiedIr s.params.W s.unspec := rfl
@[simp] theorem State.raise_run (s : State) (t : Trap) : (s.raise t).run = .halted := rfl
@[simp] theorem State.raise_cause (s : State) (t : Trap) : (s.raise t).cause = t.cause := rfl
@[simp] theorem State.raise_finfo (s : State) (t : Trap) : (s.raise t).finfo = t.info := rfl
@[simp] theorem State.raise_inpos (s : State) (t : Trap) : (s.raise t).inpos = s.inpos := rfl
@[simp] theorem State.raise_ports (s : State) (t : Trap) : (s.raise t).ports = s.ports ++ [.diag (.fatal t.cause t.info)] := rfl
@[simp] theorem State.raise_unspec (s : State) (t : Trap) : (s.raise t).unspec = s.unspec + 3 := rfl

@[simp] theorem State.raiseAtFetch_params (s : State) (t : Trap) : (s.raiseAtFetch t).params = s.params := rfl
@[simp] theorem State.raiseAtFetch_mem (s : State) (t : Trap) : (s.raiseAtFetch t).mem = s.mem := rfl
@[simp] theorem State.raiseAtFetch_pc (s : State) (t : Trap) : (s.raiseAtFetch t).pc = s.pc := rfl
@[simp] theorem State.raiseAtFetch_bp (s : State) (t : Trap) : (s.raiseAtFetch t).bp = s.bp := rfl
@[simp] theorem State.raiseAtFetch_sp (s : State) (t : Trap) : (s.raiseAtFetch t).sp = s.sp := rfl
@[simp] theorem State.raiseAtFetch_ir (s : State) (t : Trap) : (s.raiseAtFetch t).ir = s.ir := rfl
@[simp] theorem State.raiseAtFetch_run (s : State) (t : Trap) : (s.raiseAtFetch t).run = .halted := rfl
@[simp] theorem State.raiseAtFetch_cause (s : State) (t : Trap) : (s.raiseAtFetch t).cause = t.cause := rfl
@[simp] theorem State.raiseAtFetch_finfo (s : State) (t : Trap) : (s.raiseAtFetch t).finfo = t.info := rfl
@[simp] theorem State.raiseAtFetch_inpos (s : State) (t : Trap) : (s.raiseAtFetch t).inpos = s.inpos := rfl
@[simp] theorem State.raiseAtFetch_ports (s : State) (t : Trap) : (s.raiseAtFetch t).ports = s.ports ++ [.diag (.fatal t.cause t.info)] := rfl
@[simp] theorem State.raiseAtFetch_unspec (s : State) (t : Trap) : (s.raiseAtFetch t).unspec = s.unspec + 3 := rfl

/-! The three port views after one more event. -/

@[simp] theorem State.output_emit (s : State) (e : OutputEvent) : (s.emit (.output e)).output = s.output ++ [e] := by
  simp [State.output, State.emit]

@[simp] theorem State.diagnostics_emit (s : State) (e : DiagEvent) : (s.emit (.diag e)).diagnostics = s.diagnostics ++ [e] := by
  simp [State.diagnostics, State.emit]

@[simp] theorem State.traces_emit (s : State) (e : TraceEvent) : (s.emit (.trace e)).traces = s.traces ++ [e] := by
  simp [State.traces, State.emit]

end Sys2Proof.Machine
end

