-- ==== Sys2Proof/Laws/Ops.lean ====
section
/-! SUPPORT. What each shared operation can do, said once: proofs about instructions cite these and open no operation. -/

namespace Sys2Proof.Machine

/-! ## Sequencing -/

@[simp] theorem ok_bind {ε α β : Type} (a : α) (f : α → Except ε β) : (Except.ok a >>= f) = f a := rfl

@[simp] theorem error_bind {ε α β : Type} (e : ε) (f : α → Except ε β) : (Except.error e >>= f) = .error e := rfl

theorem bind_eq_ok {ε α β : Type} {x : Except ε α} {f : α → Except ε β} {r : β} :
    (x >>= f) = .ok r ↔ ∃ a, x = .ok a ∧ f a = .ok r := by
  cases x <;> simp

theorem bind_eq_error {ε α β : Type} {x : Except ε α} {f : α → Except ε β} {e : ε} :
    (x >>= f) = .error e ↔ x = .error e ∨ ∃ a, x = .ok a ∧ f a = .error e := by
  cases x <;> simp

/-! ## The regions -/

theorem codeLo_eq (p : Params) : p.codeLo = p.stackTop + 1 := by
  unfold Params.codeLo Params.stackTop; omega

theorem stackTop_lt (p : Params) : p.stackTop ≤ p.N - 1 := by
  unfold Params.stackTop; omega

theorem stackTop_pos {p : Params} (h : p.Valid) : 1 ≤ p.stackTop := by
  obtain ⟨h1, h2, -⟩ := h
  unfold Params.stackTop; omega

/-! ## Memory accesses -/

theorem memRead_inside {kind : AccessKind} {a : Int} {s : State} (h0 : 0 ≤ a) (h1 : a ≤ s.params.N - 1) :
    memRead kind a s = .ok (s.mem.read a.toNat) := by
  unfold memRead; rw [if_neg (by omega)]

theorem memRead_outside {kind : AccessKind} {a : Int} {s : State} (h : a < 0 ∨ s.params.N - 1 < a) :
    memRead kind a s = .error (addressFault kind a) := by
  unfold memRead; rw [if_pos (by omega)]

theorem dataRead_inside {a : Int} {s : State} (h0 : 0 ≤ a) (h1 : a ≤ s.params.stackTop) :
    dataRead a s = .ok (s.mem.read a.toNat) := by
  have := codeLo_eq s.params
  have := stackTop_lt s.params
  unfold dataRead; rw [if_neg (by omega), memRead_inside h0 (by omega)]

theorem dataRead_outside {a : Int} {s : State} (h : a < 0 ∨ s.params.stackTop < a) :
    dataRead a s = .error (addressFault .dataRead a) := by
  have := codeLo_eq s.params
  unfold dataRead
  split
  · rfl
  · exact memRead_outside (by omega)

theorem dataRead_eq_ok {a : Int} {s : State} {v : Int} :
    dataRead a s = .ok v ↔ (0 ≤ a ∧ a ≤ s.params.stackTop) ∧ s.mem.read a.toNat = v := by
  by_cases h : 0 ≤ a ∧ a ≤ s.params.stackTop
  · simp [dataRead_inside h.1 h.2, h]
  · simp [dataRead_outside (s := s) (a := a) (by omega), h]

theorem dataWrite_inside {a : Int} {v : Int} {s : State} (h0 : 0 ≤ a) (h1 : a ≤ s.params.stackTop) :
    dataWrite a v s = .ok (s.setMem (s.mem.write a.toNat v)) := by
  have := codeLo_eq s.params
  have := stackTop_lt s.params
  unfold dataWrite memWrite; rw [if_neg (by omega), if_neg (by omega)]

theorem dataWrite_outside {a : Int} {v : Int} {s : State} (h : a < 0 ∨ s.params.stackTop < a) :
    dataWrite a v s = .error (addressFault .dataWrite a) := by
  have := codeLo_eq s.params
  unfold dataWrite
  split
  · rfl
  · unfold memWrite; rw [if_pos (by omega)]

theorem dataWrite_eq_ok {a : Int} {v : Int} {s t : State} :
    dataWrite a v s = .ok t ↔ (0 ≤ a ∧ a ≤ s.params.stackTop) ∧ t = s.setMem (s.mem.write a.toNat v) := by
  by_cases h : 0 ≤ a ∧ a ≤ s.params.stackTop
  · simp [dataWrite_inside h.1 h.2, h, eq_comm]
  · simp [dataWrite_outside (s := s) (a := a) (by omega), h]

/-- A listed cell or an unlisted one, what is read fits a cell. -/
theorem isCell_read {N W : Nat} {m : Memory} (h : m.Fits N W) (a : Nat) : IsCell W (m.read a) := by
  induction m with
  | nil =>
    have := Nat.one_le_two_pow (n := W - 1)
    simp only [Memory.read_nil, IsCell, intMin, intMax]; constructor <;> omega
  | cons x m ih =>
    obtain ⟨b, w⟩ := x
    rw [Memory.read_cons]
    split
    · exact (h _ List.mem_cons_self).2
    · exact ih fun y hy => h y (List.mem_cons_of_mem _ hy)

/-! ## The fetch -/

theorem fetch_inside {s : State} (h0 : 2 ≤ s.pc) (h1 : s.pc ≤ s.params.N - 1) :
    fetch s = .ok ((s.setIr ⟨s.mem.read s.pc.toNat, s.mem.read (s.pc - 1).toNat, s.mem.read (s.pc - 2).toNat⟩).setPc (s.pc - 3)) := by
  simp only [fetch, memRead_inside (s := s) (a := s.pc) (by omega) (by omega),
    memRead_inside (s := s) (a := s.pc - 1) (by omega) (by omega),
    memRead_inside (s := s) (a := s.pc - 2) (by omega) (by omega), ok_bind]

theorem fetch_low {s : State} (h : s.pc = 0 ∨ s.pc = 1) (hN : 2 ≤ s.params.N) :
    fetch s = .error (addressFault .fetch (-1)) := by
  rcases h with h | h
  · simp [fetch, h, memRead_inside (s := s) (a := 0) (by omega) (by omega), memRead_outside (s := s) (a := -1) (by omega)]
  · simp [fetch, h, memRead_inside (s := s) (a := 0) (by omega) (by omega),
      memRead_inside (s := s) (a := 1) (by omega) (by omega), memRead_outside (s := s) (a := -1) (by omega)]

/-! ## The end of an instruction -/

theorem checkRegisters_eq_none {s : State} :
    checkRegisters s = none ↔ (0 ≤ s.pc ∧ s.pc ≤ s.params.N - 1) ∧ (0 ≤ s.bp ∧ s.bp ≤ s.params.stackTop) ∧
      (0 ≤ s.sp ∧ s.sp ≤ s.params.stackTop) := by
  unfold checkRegisters
  split
  · simp; omega
  · split
    · simp; omega
    · split
      · simp; omega
      · simp; omega

theorem checkRegisters_pc {s : State} (h : s.pc < 0 ∨ s.params.N - 1 < s.pc) :
    checkRegisters s = some (addressFault .regPC s.pc) := by
  unfold checkRegisters; rw [if_pos (by omega)]

theorem checkRegisters_bp {s : State} (hp : 0 ≤ s.pc ∧ s.pc ≤ s.params.N - 1) (h : s.bp < 0 ∨ s.params.stackTop < s.bp) :
    checkRegisters s = some (addressFault .regBP s.bp) := by
  unfold checkRegisters; rw [if_neg (by omega), if_pos (by omega)]

theorem checkRegisters_sp {s : State} (hp : 0 ≤ s.pc ∧ s.pc ≤ s.params.N - 1) (hb : 0 ≤ s.bp ∧ s.bp ≤ s.params.stackTop)
    (h : s.sp < 0 ∨ s.params.stackTop < s.sp) : checkRegisters s = some (addressFault .regSP s.sp) := by
  unfold checkRegisters; rw [if_neg (by omega), if_neg (by omega), if_pos (by omega)]

@[simp] theorem finish_error (name : TraceName) (s : State) (t : Trap) : finish name s (.error t) = .next (s.raise t) := rfl

theorem finish_ok {name : TraceName} {s s' : State} (h : checkRegisters s' = none) :
    finish name s (.ok s') = .next (s'.emit (.trace (.record (traceRecord name s.ir s')))) := by
  simp [finish, h]

theorem finish_check {name : TraceName} {s s' : State} {t : Trap} (h : checkRegisters s' = some t) :
    finish name s (.ok s') = .next (s.raise t) := by
  simp [finish, h]

/-- An instruction ends in one of two ways: a fault of the execute or check phase was raised in the state after the fetch, or
the tentative state is in range and committed with its trace record. -/
theorem finish_cases {name : TraceName} {s : State} {r : Except Trap State} {o : Host.Outcome State Fault Refusal}
    (h : finish name s r = o) :
    (∃ t, o = .next (s.raise t) ∧ (r = .error t ∨ ∃ s', r = .ok s' ∧ checkRegisters s' = some t)) ∨
    (∃ s', r = .ok s' ∧ checkRegisters s' = none ∧ o = .next (s'.emit (.trace (.record (traceRecord name s.ir s'))))) := by
  subst h
  cases r with
  | error t => exact .inl ⟨t, rfl, .inl rfl⟩
  | ok s' =>
    cases hc : checkRegisters s' with
    | none => exact .inr ⟨s', rfl, hc, finish_ok hc⟩
    | some t => exact .inl ⟨t, finish_check hc, .inr ⟨s', rfl, hc⟩⟩

/-! ## Operands -/

theorem base_negative {b : Int} {l : Int} {s : State} (h : l < 0) : base b l s = .error (illegalLevel l) := by
  unfold base; rw [if_pos h]

theorem base_natural (b : Int) (k : Nat) (s : State) : base b k s = walk s k b := by
  unfold base; rw [if_neg (by omega), Int.toNat_natCast]

theorem walk_step {s : State} {k : Nat} {a : Int} (h0 : 0 ≤ a) (h1 : a ≤ s.params.stackTop) :
    walk s (k + 1) a = walk s k (s.mem.read a.toNat) := by
  simp only [walk, dataRead_inside h0 h1]

/-- A walk can only fail by a data read. -/
theorem walk_eq_error {s : State} {k : Nat} {a : Int} {t : Trap} (h : walk s k a = .error t) :
    ∃ b, t = addressFault .dataRead b := by
  induction k generalizing a with
  | zero => simp [walk] at h
  | succ k ih =>
    by_cases hb : 0 ≤ a ∧ a ≤ s.params.stackTop
    · rw [walk_step hb.1 hb.2] at h; exact ih h
    · simp only [walk, dataRead_outside (s := s) (a := a) (by omega), Except.error.injEq] at h
      exact ⟨a, h.symm⟩

/-- All that a binary operation can do: nothing, or write one cell and move SP up by one. -/
theorem binary_eq_ok {f : Int → Int → Except Trap Int} {s t : State} (h : binary f s = .ok t) :
    0 ≤ s.sp ∧ s.sp + 1 ≤ s.params.stackTop ∧
      ∃ r, f (s.mem.read (s.sp + 1).toNat) (s.mem.read s.sp.toNat) = .ok r ∧
        t = (s.setMem (s.mem.write (s.sp + 1).toNat r)).setSp (s.sp + 1) := by
  simp only [binary, bind_eq_ok, dataRead_eq_ok, dataWrite_eq_ok] at h
  obtain ⟨b, ⟨⟨h0, -⟩, rfl⟩, a, ⟨⟨-, h1⟩, rfl⟩, r, hr, s', ⟨-, rfl⟩, ht⟩ := h
  exact ⟨h0, h1, r, hr, (Except.ok.inj ht).symm⟩

theorem binary_inside {f : Int → Int → Except Trap Int} {s : State} {r : Int} (h0 : 0 ≤ s.sp)
    (h1 : s.sp + 1 ≤ s.params.stackTop) (hr : f (s.mem.read (s.sp + 1).toNat) (s.mem.read s.sp.toNat) = .ok r) :
    binary f s = .ok ((s.setMem (s.mem.write (s.sp + 1).toNat r)).setSp (s.sp + 1)) := by
  simp only [binary, dataRead_inside (s := s) (a := s.sp) h0 (by omega),
    dataRead_inside (s := s) (a := s.sp + 1) (by omega) h1, ok_bind, hr,
    dataWrite_inside (s := s) (a := s.sp + 1) (by omega) h1]

theorem tdiv_eq_tdiv (a b : Int) : tdiv a b = Int.tdiv a b := by
  unfold tdiv
  rcases Int.natAbs_eq a with ha | ha <;> rcases Int.natAbs_eq b with hb | hb <;>
    rcases Nat.eq_zero_or_pos a.natAbs with h1 | h1 <;> rcases Nat.eq_zero_or_pos b.natAbs with h2 | h2 <;>
    generalize a.natAbs = x at * <;> generalize b.natAbs = y at * <;> subst ha hb <;>
    simp [Int.tdiv_neg, Int.neg_tdiv, *] <;>
    simp [Int.sign_natCast_of_ne_zero, (Nat.pos_iff_ne_zero.mp ‹0 < x›), (Nat.pos_iff_ne_zero.mp ‹0 < y›)]

end Sys2Proof.Machine
end

