-- ==== Sys2Proof/Laws/PerInstr.lean ====
section
/-! SUPPORT. One fact an instruction's constructor at a time: a well-formed instruction is encoded in three cells. -/

namespace Sys2Proof.Laws.EncodedCells

/-- Every cell width that a well-formed instruction has holds its three encoded cells. -/
def Statement (i : Instr) : Prop := ∀ W, WellFormed W i = true → (encode i).IsCells W

theorem lit (l m : Int) : Statement (.lit l m) := fun _ h => of_decide_eq_true h

theorem rtn (l : Int) : Statement (.rtn l) := fun _ h => of_decide_eq_true h

theorem add (l : Int) : Statement (.add l) := fun _ h => of_decide_eq_true h

theorem sub (l : Int) : Statement (.sub l) := fun _ h => of_decide_eq_true h

theorem mul (l : Int) : Statement (.mul l) := fun _ h => of_decide_eq_true h

theorem div (l : Int) : Statement (.div l) := fun _ h => of_decide_eq_true h

theorem eql (l : Int) : Statement (.eql l) := fun _ h => of_decide_eq_true h

theorem neq (l : Int) : Statement (.neq l) := fun _ h => of_decide_eq_true h

theorem lss (l : Int) : Statement (.lss l) := fun _ h => of_decide_eq_true h

theorem leq (l : Int) : Statement (.leq l) := fun _ h => of_decide_eq_true h

theorem gtr (l : Int) : Statement (.gtr l) := fun _ h => of_decide_eq_true h

theorem geq (l : Int) : Statement (.geq l) := fun _ h => of_decide_eq_true h

theorem oprInvalid (l m : Int) : Statement (.oprInvalid l m) := fun _ h =>
  have h := of_decide_eq_true h
  ⟨h.1, h.2.1, h.2.2.1⟩

theorem lod (l m : Int) : Statement (.lod l m) := fun _ h => of_decide_eq_true h

theorem sto (l m : Int) : Statement (.sto l m) := fun _ h => of_decide_eq_true h

theorem cal (l m : Int) : Statement (.cal l m) := fun _ h => of_decide_eq_true h

theorem inc (l m : Int) : Statement (.inc l m) := fun _ h => of_decide_eq_true h

theorem jmp (l m : Int) : Statement (.jmp l m) := fun _ h => of_decide_eq_true h

theorem jpc (l m : Int) : Statement (.jpc l m) := fun _ h => of_decide_eq_true h

theorem sysPrint (l : Int) : Statement (.sysPrint l) := fun _ h => of_decide_eq_true h

theorem sysRead (l : Int) : Statement (.sysRead l) := fun _ h => of_decide_eq_true h

theorem sysHalt (l : Int) : Statement (.sysHalt l) := fun _ h => of_decide_eq_true h

theorem sysInvalid (l m : Int) : Statement (.sysInvalid l m) := fun _ h =>
  have h := of_decide_eq_true h
  ⟨h.1, h.2.1, h.2.2.1⟩

end Sys2Proof.Laws.EncodedCells
end

