-- ==== Sys2Proof/Laws/Step.lean ====
section
/-! SUPPORT. What an instruction and a step can do, said once: proofs about runs cite these and open neither `exec` nor
`step`. -/

namespace Sys2Proof.Machine

theorem finish_next (name : TraceName) (s : State) (r : Except Trap State) : ∃ t, finish name s r = .next t := by
  rcases finish_cases (name := name) (s := s) (r := r) rfl with ⟨t, h, -⟩ | ⟨s', -, -, h⟩
  · exact ⟨_, h⟩
  · exact ⟨_, h⟩

/-- The state in which SYS.READ takes its answer (R136). -/
def askedRead (s : State) : State :=
  ((s.setSp (s.sp - 1)).emit (.output .prompt)).setInpos (s.inpos + 1)

/-- The name an instruction's trace record shows (R156). -/
def traceName : Instr → TraceName
  | .lit _ _ => .lit
  | .rtn _ => .rtn
  | .add _ => .add
  | .sub _ => .sub
  | .mul _ => .mul
  | .div _ => .div
  | .eql _ => .eql
  | .neq _ => .neq
  | .lss _ => .lss
  | .leq _ => .leq
  | .gtr _ => .gtr
  | .geq _ => .geq
  | .oprInvalid _ _ => .opr
  | .lod _ _ => .lod
  | .sto _ _ => .sto
  | .cal _ _ => .cal
  | .inc _ _ => .inc
  | .jmp _ _ => .jmp
  | .jpc _ _ => .jpc
  | .sysPrint _ | .sysRead _ | .sysHalt _ | .sysInvalid _ _ => .sys

/-- The execute phase of an instruction on a copy of the state (R170). -/
def executePhase (i : Instr) (s : State) : Except Trap State :=
  match i with
  | .lit _ m => do
    let s' ← dataWrite (s.sp - 1) m s
    .ok (s'.setSp (s.sp - 1))
  | .rtn _ => do
    let bp ← dataRead (s.bp + 1 - 2) s
    let pc ← dataRead (s.bp + 1 - 3) s
    .ok (((s.setSp (s.bp + 1)).setBp bp).setPc pc)
  | .add _ => binary (fun a b => .ok (addCells s.params.W a b)) s
  | .sub _ => binary (fun a b => .ok (subCells s.params.W a b)) s
  | .mul _ => binary (fun a b => .ok (mulCells s.params.W a b)) s
  | .div _ => binary (divCells s.params.W) s
  | .eql _ => binary (fun a b => .ok (eqlCells a b)) s
  | .neq _ => binary (fun a b => .ok (neqCells a b)) s
  | .lss _ => binary (fun a b => .ok (lssCells a b)) s
  | .leq _ => binary (fun a b => .ok (leqCells a b)) s
  | .gtr _ => binary (fun a b => .ok (gtrCells a b)) s
  | .geq _ => binary (fun a b => .ok (geqCells a b)) s
  | .oprInvalid _ m => .ok (s.emit (.diag (.badOpr m)))
  | .lod l m => do
    let ea ← effectiveAddress l m s
    let v ← dataRead ea s
    let s' ← dataWrite (s.sp - 1) v s
    .ok (s'.setSp (s.sp - 1))
  | .sto l m => do
    let ea ← effectiveAddress l m s
    let v ← dataRead s.sp s
    let s' ← dataWrite ea v s
    .ok (s'.setSp (s.sp + 1))
  | .cal l m => do
    let sl ← base s.bp l s
    let s1 ← dataWrite (s.sp - 1) sl s
    let s2 ← dataWrite (s.sp - 2) s.bp s1
    let s3 ← dataWrite (s.sp - 3) s.pc s2
    .ok ((s3.setBp (s.sp - 1)).setPc (target m s))
  | .inc _ m => .ok (s.setSp (s.sp - m))
  | .jmp _ m => .ok (s.setPc (target m s))
  | .jpc _ m => do
    let v ← dataRead s.sp s
    .ok ((if branchTaken v then s.setPc (target m s) else s).setSp (s.sp + 1))
  | .sysPrint _ => do
    let v ← dataRead s.sp s
    .ok ((s.emit (.output (.print v))).setSp (s.sp + 1))
  | .sysRead _ =>
    if s.sp - 1 < 0 then .error (addressFault .dataWrite (s.sp - 1))
    else
      match nextInput s with
      | .fail => .error inputFault
      | .int v => dataWrite (s.sp - 1) v (askedRead s)
  | .sysHalt _ => .ok (s.endRun .halt)
  | .sysInvalid _ m => .ok (s.emit (.diag (.badSys m)))

/-- The read fails: the one fault that keeps effects (R179). -/
abbrev ReadFails (i : Instr) (s : State) : Prop := (∃ l, i = .sysRead l) ∧ 1 ≤ s.sp ∧ nextInput s = .fail

/-- Every instruction is its execute phase, then check, commit and trace, but for a failed read. -/
theorem exec_eq_finish {i : Instr} {s : State} (h : ¬ ReadFails i s) :
    exec i s = finish (traceName i) s (executePhase i s) := by
  cases i
  case sysRead l =>
    simp only [exec, execSysRead, executePhase]
    split
    · rfl
    · next h0 =>
      cases hin : nextInput s with
      | fail => exact absurd ⟨⟨l, rfl⟩, by omega, hin⟩ h
      | int v => rfl
  all_goals rfl

theorem exec_failedRead {i : Instr} {s : State} (h : ReadFails i s) : exec i s = .next ((askedRead s).raise inputFault) := by
  obtain ⟨⟨l, rfl⟩, h1, hin⟩ := h
  simp only [exec, execSysRead, if_neg (show ¬ s.sp - 1 < 0 by omega), hin]
  rfl

/-- An instruction ends in one of three ways: a fault of its execute phase or of the register check, raised in the state after
the fetch; a failed read; or the tentative state, its registers in range, committed with its trace record. -/
theorem exec_cases {i : Instr} {s : State} {o : Host.Outcome State Fault Refusal} (h : exec i s = o) :
    (∃ t, o = .next (s.raise t) ∧
      (executePhase i s = .error t ∨ ∃ s', executePhase i s = .ok s' ∧ checkRegisters s' = some t)) ∨
    (ReadFails i s ∧ o = .next ((askedRead s).raise inputFault)) ∨
    (∃ s', executePhase i s = .ok s' ∧ checkRegisters s' = none ∧
      o = .next (s'.emit (.trace (.record (traceRecord (traceName i) s.ir s'))))) := by
  by_cases hr : ReadFails i s
  · exact .inr (.inl ⟨hr, h ▸ exec_failedRead hr⟩)
  · rcases finish_cases (exec_eq_finish hr ▸ h) with ⟨t, ht, hc⟩ | ⟨s', he, hc, hs⟩
    · exact .inl ⟨t, ht, hc⟩
    · exact .inr (.inr ⟨s', he, hc, hs⟩)

theorem exec_next (i : Instr) (s : State) : ∃ t, exec i s = .next t := by
  rcases exec_cases (i := i) (s := s) rfl with ⟨t, h, -⟩ | ⟨-, h⟩ | ⟨s', -, -, h⟩
  · exact ⟨_, h⟩
  · exact ⟨_, h⟩
  · exact ⟨_, h⟩

/-- The state the fetch phase leaves (R171). -/
def State.afterFetch (s : State) : State := (s.setIr s.fetched).setPc (s.pc - 3)

theorem fetch_cases (s : State) :
    (∃ a, fetch s = .error (addressFault .fetch a)) ∨ (fetch s = .ok s.afterFetch ∧ 2 ≤ s.pc ∧ s.pc ≤ s.params.N - 1) := by
  by_cases h : 2 ≤ s.pc ∧ s.pc ≤ s.params.N - 1
  · exact .inr ⟨fetch_inside h.1 h.2, h⟩
  · left
    unfold fetch
    by_cases h0 : 0 ≤ s.pc ∧ s.pc ≤ s.params.N - 1
    · rw [memRead_inside h0.1 h0.2]
      by_cases h1 : 0 ≤ s.pc - 1
      · rw [memRead_inside h1 (by omega), memRead_outside (a := s.pc - 2) (by omega)]
        exact ⟨_, rfl⟩
      · rw [memRead_outside (a := s.pc - 1) (by omega)]
        exact ⟨_, rfl⟩
    · rw [memRead_outside (a := s.pc) (by omega)]
      exact ⟨_, rfl⟩

/-- A step that gives a next state starts in a running one and is a fetch fault, an illegal opcode or an instruction. -/
theorem step_cases {s t : State} (h : step s = .next t) :
    s.run = .running ∧
    ((∃ a, fetch s = .error (addressFault .fetch a) ∧ t = s.raiseAtFetch (addressFault .fetch a)) ∨
     (2 ≤ s.pc ∧ s.pc ≤ s.params.N - 1 ∧
      ((decode s.fetched = .error (.illegalOpcode s.fetched.op) ∧ t = s.afterFetch.raise (illegalOpcode s.fetched.op)) ∨
       ∃ i, decode s.fetched = .ok i ∧ exec i s.afterFetch = .next t))) := by
  unfold step at h
  split at h
  · cases h
  · next hr =>
    refine ⟨hr, ?_⟩
    rcases fetch_cases s with ⟨a, ha⟩ | ⟨hf, h2, hN⟩
    · rw [ha] at h
      exact .inl ⟨a, ha, (Host.Outcome.next.inj h).symm⟩
    · rw [hf] at h
      refine .inr ⟨h2, hN, ?_⟩
      change (match decode s.fetched with
        | .error (.illegalOpcode op) => Host.Outcome.next (s.afterFetch.raise (illegalOpcode op))
        | .ok i => exec i s.afterFetch) = .next t at h
      cases hd : decode s.fetched with
      | error e =>
        obtain ⟨op⟩ := e
        obtain rfl := decode_error_op hd
        rw [hd] at h
        exact .inl ⟨rfl, (Host.Outcome.next.inj h).symm⟩
      | ok i => rw [hd] at h; exact .inr ⟨i, rfl, h⟩

end Sys2Proof.Machine
end

