-- ==== Sys2Proof/Laws/Phase.lean ====
section
/-! SUPPORT. What the execute phase and a whole step can do, said once: the faults an instruction can raise, the frame of an
instruction that completes, and the ways a step ends. -/

namespace Sys2Proof.Machine

/-! ## Faults -/

/-- The check phase raises ADDRESS_FAULT only (R176). -/
theorem checkRegisters_cause {s : State} {t : Trap} (h : checkRegisters s = some t) : t.cause = .addressFault := by
  unfold checkRegisters at h
  split_ifs at h <;> (simp at h; subst h; rfl)

theorem base_eq_error {s : State} {b l : Int} {t : Trap} (h : base b l s = .error t) : (∃ a, t = addressFault .dataRead a) ∨ (l < 0 ∧ t = illegalLevel l) := by
  unfold base at h
  split at h
  · next hl => exact .inr ⟨hl, (Except.error.inj h).symm⟩
  · exact .inl (walk_eq_error h)

theorem dataRead_eq_error {a : Int} {s : State} {t : Trap} (h : dataRead a s = .error t) : t = addressFault .dataRead a := by
  by_cases hh : 0 ≤ a ∧ a ≤ s.params.stackTop
  · rw [dataRead_inside hh.1 hh.2] at h; cases h
  · rw [dataRead_outside (by omega)] at h; exact (Except.error.inj h).symm
theorem dataWrite_eq_error {a v : Int} {s : State} {t : Trap} (h : dataWrite a v s = .error t) : t = addressFault .dataWrite a := by
  by_cases hh : 0 ≤ a ∧ a ≤ s.params.stackTop
  · rw [dataWrite_inside hh.1 hh.2] at h; cases h
  · rw [dataWrite_outside (by omega)] at h; exact (Except.error.inj h).symm

theorem binary_eq_error {f : Int → Int → Except Trap Int} {s : State} {t : Trap} (h : binary f s = .error t) : (∃ k a, t = addressFault k a ∧ k ≠ .fetch) ∨ (∃ a b, f a b = .error t) := by
  unfold binary at h
  rcases bind_eq_error.1 h with h | ⟨b, -, h⟩
  · exact .inl ⟨_, _, dataRead_eq_error h, by simp⟩
  rcases bind_eq_error.1 h with h | ⟨a, -, h⟩
  · exact .inl ⟨_, _, dataRead_eq_error h, by simp⟩
  rcases bind_eq_error.1 h with h | ⟨r, -, h⟩
  · exact .inr ⟨_, _, h⟩
  rcases bind_eq_error.1 h with h | ⟨r, -, h⟩
  · exact .inl ⟨_, _, dataWrite_eq_error h, by simp⟩
  cases h

/-- All the faults of an execute phase (R173, R174). -/
theorem executePhase_eq_error {i : Instr} {s : State} {t : Trap} (h : executePhase i s = .error t) :
    (∃ k a, t = addressFault k a ∧ k ≠ .fetch) ∨ (t = divideByZero) ∨ (t = divideOverflow) ∨
    (∃ l m, l < 0 ∧ t = illegalLevel l ∧ (i = .lod l m ∨ i = .sto l m ∨ i = .cal l m)) ∨ (t = inputFault ∧ ReadFails i s) := by
  have bin : ∀ f : Int → Int → Int, binary (fun a b => .ok (f a b)) s = .error t → (∃ k a, t = addressFault k a ∧ k ≠ .fetch) := by
    intro f hf
    rcases binary_eq_error hf with h | ⟨a, b, h⟩
    · exact h
    · cases h
  have dr : ∀ a, dataRead a s = .error t → (∃ k a, t = addressFault k a ∧ k ≠ .fetch) := fun a h => ⟨_, _, dataRead_eq_error h, by simp⟩
  have dw : ∀ a v s', dataWrite a v s' = .error t → (∃ k a, t = addressFault k a ∧ k ≠ .fetch) := fun a v s' h => ⟨_, _, dataWrite_eq_error h, by simp⟩
  cases i
  case lit l m =>
    rcases bind_eq_error.1 h with h | ⟨u, -, h⟩
    · exact .inl (dw _ _ _ h)
    · cases h
  case rtn l =>
    rcases bind_eq_error.1 h with h | ⟨u, -, h⟩
    · exact .inl (dr _ h)
    rcases bind_eq_error.1 h with h | ⟨u, -, h⟩
    · exact .inl (dr _ h)
    · cases h
  case div l =>
    rcases binary_eq_error h with h | ⟨a, b, h⟩
    · exact .inl h
    · unfold divCells at h
      split_ifs at h <;> cases h <;> simp
  case lod l m =>
    rcases bind_eq_error.1 h with h | ⟨u, -, h⟩
    · rcases bind_eq_error.1 h with h | ⟨u, -, h⟩
      · rcases base_eq_error h with ⟨a, ha⟩ | ⟨hl, ha⟩
        · exact .inl ⟨_, _, ha, by simp⟩
        · exact .inr (.inr (.inr (.inl ⟨l, m, hl, ha, .inl rfl⟩)))
      · cases h
    rcases bind_eq_error.1 h with h | ⟨u, -, h⟩
    · exact .inl (dr _ h)
    rcases bind_eq_error.1 h with h | ⟨u, -, h⟩
    · exact .inl (dw _ _ _ h)
    · cases h
  case sto l m =>
    rcases bind_eq_error.1 h with h | ⟨u, -, h⟩
    · rcases bind_eq_error.1 h with h | ⟨u, -, h⟩
      · rcases base_eq_error h with ⟨a, ha⟩ | ⟨hl, ha⟩
        · exact .inl ⟨_, _, ha, by simp⟩
        · exact .inr (.inr (.inr (.inl ⟨l, m, hl, ha, .inr (.inl rfl)⟩)))
      · cases h
    rcases bind_eq_error.1 h with h | ⟨u, -, h⟩
    · exact .inl (dr _ h)
    rcases bind_eq_error.1 h with h | ⟨u, -, h⟩
    · exact .inl (dw _ _ _ h)
    · cases h
  case cal l m =>
    rcases bind_eq_error.1 h with h | ⟨u, -, h⟩
    · rcases base_eq_error h with ⟨a, ha⟩ | ⟨hl, ha⟩
      · exact .inl ⟨_, _, ha, by simp⟩
      · exact .inr (.inr (.inr (.inl ⟨l, m, hl, ha, .inr (.inr rfl)⟩)))
    rcases bind_eq_error.1 h with h | ⟨u, -, h⟩
    · exact .inl (dw _ _ _ h)
    rcases bind_eq_error.1 h with h | ⟨u, -, h⟩
    · exact .inl (dw _ _ _ h)
    rcases bind_eq_error.1 h with h | ⟨u, -, h⟩
    · exact .inl (dw _ _ _ h)
    · cases h
  case jpc l m =>
    rcases bind_eq_error.1 h with h | ⟨u, -, h⟩
    · exact .inl (dr _ h)
    · cases h
  case sysPrint l =>
    rcases bind_eq_error.1 h with h | ⟨u, -, h⟩
    · exact .inl (dr _ h)
    · cases h
  case sysRead l =>
    simp only [executePhase] at h
    split at h
    · exact .inl ⟨_, _, (Except.error.inj h).symm, by simp⟩
    · split at h
      · next hin => exact .inr (.inr (.inr (.inr ⟨(Except.error.inj h).symm, ⟨l, rfl⟩, by omega, hin⟩)))
      · exact .inl (dw _ _ _ h)
  case oprInvalid l m => cases h
  case sysInvalid l m => cases h
  case inc l m => cases h
  case jmp l m => cases h
  case sysHalt l => cases h
  all_goals exact .inl (bin _ h)

/-! ## The frame -/

/-- The events an execute phase emits (R101, R135, R136, R138). -/
def PhaseEvents (i : Instr) (s : State) (first : List Event) : Prop :=
  match i with
  | .sysPrint _ => first = [.output (.print s.top)]
  | .sysRead _ => first = [.output .prompt]
  | .oprInvalid _ m => first = [.diag (.badOpr m)]
  | .sysInvalid _ m => first = [.diag (.badSys m)]
  | _ => first = []

/-- The instruction has a memory write. -/
def writesMemory : Instr → Bool
  | .inc .. | .rtn .. | .jmp .. | .jpc .. | .sysPrint .. | .sysHalt .. | .oprInvalid .. | .sysInvalid .. => false
  | _ => true

/-- All that a completed execute phase leaves as it was, and the instructions that may change the rest (R21, R42). -/
structure PhaseFrame (i : Instr) (s u : State) : Prop where
  params : u.params = s.params
  mem : ∃ ws : List (Int × Int), (∀ w ∈ ws, 0 ≤ w.1 ∧ w.1 ≤ s.params.stackTop) ∧ u.mem = ws.foldl (fun m w => m.write w.1.toNat w.2) s.mem
  nomem : writesMemory i = false → u.mem = s.mem
  bp : u.bp = s.bp ∨ ∃ l m, i = .cal l m ∨ i = .rtn l
  pc : u.pc = s.pc ∨ ∃ l m, i = .cal l m ∨ i = .rtn l ∨ i = .jmp l m ∨ i = .jpc l m
  sp : u.sp = s.sp ∨ ∀ l m, i ≠ .cal l m ∧ i ≠ .jmp l m ∧ i ≠ .sysHalt l ∧ i ≠ .oprInvalid l m ∧ i ≠ .sysInvalid l m
  ports : ∃ first, u.ports = s.ports ++ first ∧ PhaseEvents i s first
  run : (u.run = s.run ∧ u.cause = s.cause ∧ ∀ l, i ≠ .sysHalt l) ∨ (u.run = .halted ∧ u.cause = .halt ∧ (∃ l, i = .sysHalt l) ∧ u.mem = s.mem)
  inpos : u.inpos = s.inpos ∨ ∃ l, i = .sysRead l
  finfo : u.finfo = s.finfo

theorem binary_frame {i : Instr} {s u : State} {f : Int → Int → Except Trap Int} (h : binary f s = .ok u) (hF : ∀ x, PhaseEvents i s x ↔ x = []) (h1 : ∀ l, i ≠ .sysHalt l) 
  (h2 : ∀ l m, i ≠ .cal l m ∧ i ≠ .jmp l m ∧ i ≠ .sysHalt l ∧ i ≠ .oprInvalid l m ∧ i ≠ .sysInvalid l m)
  (h3 : writesMemory i = true) : PhaseFrame i s u := by
  obtain ⟨a, b, r, -, rfl⟩ := binary_eq_ok h
  exact ⟨rfl, ⟨[(s.sp+1, r)], by simp; omega, rfl⟩, by simp [h3], .inl rfl, .inl rfl, .inr h2, ⟨[], by simp, (hF _).2 rfl⟩, .inl ⟨rfl, rfl, h1⟩, .inl rfl, rfl⟩

theorem executePhase_frame {i : Instr} {s u : State} (h : executePhase i s = .ok u) : PhaseFrame i s u := by
  cases i
  all_goals simp only [executePhase, bind_eq_ok, dataWrite_eq_ok] at h
  case lit l m => obtain ⟨u, ⟨h1, rfl⟩, h⟩ := h; obtain rfl := Except.ok.inj h; exact ⟨rfl, ⟨[(_,_)], by simp; omega, rfl⟩, by simp [writesMemory], .inl rfl, .inl rfl, by simp, ⟨[], by simp [PhaseEvents]⟩, by simp, .inl rfl, rfl⟩
  case rtn => obtain ⟨_, -, _, -, h⟩ := h; obtain rfl := Except.ok.inj h; exact ⟨rfl, ⟨[], by simp⟩, by simp, by simp, by simp, by simp, ⟨[], by simp [PhaseEvents]⟩, by simp, .inl rfl, rfl⟩
  case lod => obtain ⟨_, -, _, -, _, ⟨h1, rfl⟩, h⟩ := h; obtain rfl := Except.ok.inj h; exact ⟨rfl, ⟨[(_,_)], by simp; omega, rfl⟩, by simp [writesMemory], .inl rfl, .inl rfl, by simp, ⟨[], by simp [PhaseEvents]⟩, by simp, .inl rfl, rfl⟩
  case sto => obtain ⟨_, -, _, -, _, ⟨h1, rfl⟩, h⟩ := h; obtain rfl := Except.ok.inj h; exact ⟨rfl, ⟨[(_,_)], by simp; omega, rfl⟩, by simp [writesMemory], .inl rfl, .inl rfl, by simp, ⟨[], by simp [PhaseEvents]⟩, by simp, .inl rfl, rfl⟩
  case cal => obtain ⟨_, -, _, ⟨h1, rfl⟩, _, ⟨h2, rfl⟩, _, ⟨h3, rfl⟩, h⟩ := h; obtain rfl := Except.ok.inj h; exact ⟨rfl, ⟨[(_,_),(_,_),(_,_)], by simp at *; omega, rfl⟩, by simp [writesMemory], by simp, by simp, by simp, ⟨[], by simp [PhaseEvents]⟩, by simp, .inl rfl, rfl⟩
  case jpc => obtain ⟨_, -, h⟩ := h; obtain rfl := Except.ok.inj h; split <;> exact ⟨rfl, ⟨[], by simp⟩, by simp, by simp, by simp, by simp, ⟨[], by simp [PhaseEvents]⟩, by simp, .inl rfl, rfl⟩
  case sysPrint => obtain ⟨_, h1, h⟩ := h; obtain rfl := Except.ok.inj h; obtain ⟨-, rfl⟩ := dataRead_eq_ok.1 h1; exact ⟨rfl, ⟨[], by simp⟩, by simp, by simp, by simp, by simp, ⟨[.output (.print s.top)], by simp [PhaseEvents, State.top]⟩, by simp, .inl rfl, rfl⟩
  case sysRead =>
    split at h
    · cases h
    · split at h
      · cases h
      · obtain ⟨h1, rfl⟩ := dataWrite_eq_ok.1 h; exact ⟨rfl, ⟨[(_,_)], by simp; have : (askedRead s).params = s.params := rfl; rw [this] at h1; omega, rfl⟩, by simp [writesMemory], .inl rfl, .inl rfl, by simp, ⟨[.output .prompt], by simp [PhaseEvents, askedRead]⟩, by simp [askedRead], by simp, rfl⟩
  case sysHalt => obtain rfl := Except.ok.inj h; exact ⟨rfl, ⟨[], by simp⟩, by simp, by simp, by simp, by simp, ⟨[], by simp [PhaseEvents]⟩, by simp, .inl rfl, rfl⟩
  case inc => obtain rfl := Except.ok.inj h; exact ⟨rfl, ⟨[], by simp⟩, by simp, by simp, by simp, by simp, ⟨[], by simp [PhaseEvents]⟩, by simp, .inl rfl, rfl⟩
  case jmp => obtain rfl := Except.ok.inj h;  exact ⟨rfl, ⟨[], by simp⟩, by simp, by simp, by simp, by simp, ⟨[], by simp [PhaseEvents]⟩, by simp, .inl rfl, rfl⟩
  case sysInvalid => obtain rfl := Except.ok.inj h;  exact ⟨rfl, ⟨[], by simp⟩, by simp, by simp, by simp, by simp, ⟨[_], rfl, by simp [PhaseEvents]⟩, by simp, .inl rfl, rfl⟩
  case oprInvalid => obtain rfl := Except.ok.inj h;  exact ⟨rfl, ⟨[], by simp⟩, by simp, by simp, by simp, by simp, ⟨[_], rfl, by simp [PhaseEvents]⟩, by simp, .inl rfl, rfl⟩
  all_goals exact binary_frame h (by simp [PhaseEvents]) (by simp) (by simp) rfl


/-- Writes at or below `top` leave every cell above it alone. -/
theorem Memory.read_foldl_write {ws : List (Int × Int)} {top : Int} : ∀ {m : Memory}, m.wf → (∀ w ∈ ws, 0 ≤ w.1 ∧ w.1 ≤ top) → ∀ a : Nat, top < a → (ws.foldl (fun m w => m.write w.1.toNat w.2) m).read a = m.read a := by
  induction ws with
  | nil => intros; rfl
  | cons w ws ih =>
    intro m hm hw a ha
    have h1 := hw w List.mem_cons_self
    rw [List.foldl_cons, ih (Memory.wf_write hm _ _) (fun x hx => hw x (List.mem_cons_of_mem _ hx)) a ha, Memory.read_write hm, if_neg (by omega)]

/-- The ways a step ends: a fetch fault, an illegal opcode, a fault of the instruction, a failed read, or a completed
instruction with its frame. -/
theorem step_outcome {s t : State} (h : step s = .next t) :
   s.run = .running ∧
   ((∃ a, t = s.raiseAtFetch (addressFault .fetch a)) ∨
    (t = s.afterFetch.raise (illegalOpcode s.fetched.op)) ∨
    ∃ i, decode s.fetched = .ok i ∧
     ((∃ tr, t = s.afterFetch.raise tr ∧ ((∃ k a, tr = addressFault k a ∧ k ≠ .fetch) ∨ tr = divideByZero ∨ tr = divideOverflow ∨ (∃ l m, tr = illegalLevel l ∧ l < 0 ∧ (i = .lod l m ∨ i = .sto l m ∨ i = .cal l m)))) ∨
      (ReadFails i s.afterFetch ∧ t = (askedRead s.afterFetch).raise inputFault) ∨
      ∃ u, PhaseFrame i s.afterFetch u ∧ checkRegisters u = none ∧ t = u.emit (.trace (.record (traceRecord (traceName i) s.fetched u))))) := by
  obtain ⟨hr, h⟩ := step_cases h
  refine ⟨hr, ?_⟩
  rcases h with ⟨a, -, rfl⟩ | ⟨h2, hN, ⟨-, rfl⟩ | ⟨i, hd, he⟩⟩
  · exact .inl ⟨a, rfl⟩
  · exact .inr (.inl rfl)
  refine .inr (.inr ⟨i, hd, ?_⟩)
  rcases exec_cases he with ⟨tr, ht, hc⟩ | ⟨hrf, ht⟩ | ⟨u, hu, hc, ht⟩
  · obtain rfl := Host.Outcome.next.inj ht
    rcases hc with hc | ⟨u, -, hc⟩
    · by_cases hrf : ReadFails i s.afterFetch
      · right; left; refine ⟨hrf, ?_⟩
        rw [exec_failedRead hrf] at he; exact (Host.Outcome.next.inj he).symm
      rcases executePhase_eq_error hc with ⟨k, a, h⟩ | rfl | rfl | ⟨l, m, hl, rfl, hi⟩ | ⟨rfl, hx⟩
      · exact .inl ⟨tr, rfl, .inl ⟨k, a, h⟩⟩
      · exact .inl ⟨_, rfl, by simp⟩
      · exact .inl ⟨_, rfl, by simp⟩
      · exact .inl ⟨_, rfl, .inr (.inr (.inr ⟨l, m, rfl, hl, hi⟩))⟩
      · exact absurd hx hrf
    · refine .inl ⟨tr, rfl, .inl ?_⟩
      unfold checkRegisters at hc
      split_ifs at hc <;> (obtain rfl := Option.some.inj hc; exact ⟨_, _, rfl, by simp⟩)
  · exact .inr (.inl ⟨hrf, Host.Outcome.next.inj ht⟩)
  · exact .inr (.inr ⟨u, executePhase_frame hu, hc, Host.Outcome.next.inj ht⟩)

end Sys2Proof.Machine
end

