-- ==== Sys2Proof/Laws/Run.lean ====
section
/-! SUPPORT. Runs of the machine, one step at a time. -/

namespace Sys2Proof.Machine

theorem run_zero (s : State) : core.run 0 s = .next s := rfl

/-- A run whose first step gives `t` goes on from `t`. -/
theorem run_succ_next {s t : State} (h : step s = .next t) (k : Nat) : core.run (k + 1) s = core.run k t := by
  simp only [Host.Core.run]
  rw [show core.step s = .next t from h]

/-- A run that starts in a halted state stops there. -/
theorem run_succ_fault {s : State} {r : Fault} (h : step s = .fault r) (k : Nat) : core.run (k + 1) s = .fault r := by
  simp only [Host.Core.run]
  rw [show core.step s = .fault r from h]

/-- What a run from a legitimate state keeps: a property that every step keeps holds wherever a run gets to. -/
theorem run_keeps {P : State → Prop} (hstep : ∀ s t, P s → step s = .next t → P t) :
    ∀ (k : Nat) (s t : State), P s → core.run k s = .next t → P t
  | 0, s, t, hs, h => by
    rw [run_zero] at h
    exact Host.Outcome.next.inj h ▸ hs
  | k + 1, s, t, hs, h => by
    cases hst : step s with
    | next u => exact run_keeps hstep k u t (hstep s u hs hst) (run_succ_next hst k ▸ h)
    | fault r => rw [run_succ_fault hst] at h; cases h
    | refused r =>
      simp only [Host.Core.run] at h
      rw [show core.step s = .refused r from hst] at h
      cases h

end Sys2Proof.Machine
end

