-- ==== Sys2Proof/Tests/Slice0.lean ====
section
/-! SUPPORT. Tests on fixed values, from the vectors of spec/95_test_vectors.md (named V-…) or worked by hand from the rules,
and for every statement with hypotheses a witness that they can all hold at once. Each is one step of a small state. -/

namespace Sys2Proof.Tests

open Sys2Proof.Machine

/-! ## Helpers -/

def cells (xs : List (Nat × Int)) : Memory := xs.foldl (fun m x => m.write x.1 x.2) []

/-- The vectors' configuration: 500 cells of 32 bits, ten instructions, so that `STACK_TOP = 469`. The cells of the program
that the step does not fetch are left 0 here. -/
def mach (pc bp sp : Int) (xs : List (Nat × Int)) (input : List InputItem := []) : State :=
  { State.reset with params := ⟨500, 32, 10, input⟩, mem := cells xs, pc := pc, bp := bp, sp := sp }

/-- The vectors' unit context: the instruction at 499. -/
def unit (op l m bp sp : Int) (xs : List (Nat × Int)) (input : List InputItem := []) : State :=
  mach 499 bp sp ([(499, op), (498, l), (497, m)] ++ xs) input

/-- An outcome is a next state with this property. -/
def holdsNext (o : Host.Outcome State Fault Refusal) (p : State → Bool) : Bool :=
  match o with
  | .next t => p t
  | _ => false

/-- One step gives a running state with these registers and these cells. -/
def runsTo (s : State) (pc bp sp : Int) (xs : List (Nat × Int)) : Bool :=
  holdsNext (step s) fun t => decide (t.run = .running ∧ t.pc = pc ∧ t.bp = bp ∧ t.sp = sp) &&
    xs.all fun x => decide (t.mem.read x.1 = x.2)

/-- One step halts with this cause and information, these registers, and memory as it was. -/
def haltsAt (s : State) (pc bp sp : Int) (c : Cause) (i : FaultInfo) : Bool :=
  holdsNext (step s) fun t => decide (t.run = .halted ∧ t.cause = c ∧ t.finfo = i ∧ t.pc = pc ∧ t.bp = bp ∧ t.sp = sp ∧
    t.mem = s.mem)

/-- The events that one step adds. -/
def emits (s : State) (events : List Event) : Bool :=
  holdsNext (step s) fun t => decide (t.ports.drop s.ports.length = events)

/-! ## WellFormed: an ill-formed term for each check -/

theorem test_wellFormed_level_too_wide : WellFormed 32 (.lit 2147483648 5) = false := by decide
theorem test_wellFormed_modifier_too_low : WellFormed 32 (.lod 0 (-2147483649)) = false := by decide
theorem test_wellFormed_selected_opr_is_not_reserved : WellFormed 32 (.oprInvalid 0 10) = false := by decide
theorem test_wellFormed_selected_sys_is_not_reserved : WellFormed 32 (.sysInvalid 0 1) = false := by decide
theorem test_wellFormed_opcode_does_not_fit : WellFormed 4 (.jpc 0 0) = false := by decide
theorem test_wellFormed_selector_does_not_fit : WellFormed 4 (.geq 0) = false := by decide

/-- No instruction with a level of 33 bits is well formed. -/
theorem test_wellFormed_every_level : ∀ i ∈ [Instr.lit 4294967296 0, .rtn 4294967296, .add 4294967296, .sub 4294967296,
    .mul 4294967296, .div 4294967296, .eql 4294967296, .neq 4294967296, .lss 4294967296, .leq 4294967296, .gtr 4294967296,
    .geq 4294967296, .oprInvalid 4294967296 11, .lod 4294967296 0, .sto 4294967296 0, .cal 4294967296 0, .inc 4294967296 0,
    .jmp 4294967296 0, .jpc 4294967296 0, .sysPrint 4294967296, .sysRead 4294967296, .sysHalt 4294967296,
    .sysInvalid 4294967296 0], WellFormed 32 i = false := by decide

/-! ## Decoding: the packed words of R66 and R67, opcode, level and modifier in 32 bits each -/

theorem test_decode_lit : decodeTableWord 96 0x00000001_00000000_00000005 = some (.lit 0 5) := by decide
theorem test_decode_rtn : decodeTableWord 96 0x00000002_00000000_00000000 = some (.rtn 0) := by decide
theorem test_decode_add : decodeTableWord 96 0x00000002_00000009_00000001 = some (.add 9) := by decide
theorem test_decode_sub : decodeTableWord 96 0x00000002_00000000_00000002 = some (.sub 0) := by decide
theorem test_decode_mul : decodeTableWord 96 0x00000002_00000000_00000003 = some (.mul 0) := by decide
theorem test_decode_div : decodeTableWord 96 0x00000002_00000000_00000004 = some (.div 0) := by decide
theorem test_decode_eql : decodeTableWord 96 0x00000002_00000000_00000005 = some (.eql 0) := by decide
theorem test_decode_neq : decodeTableWord 96 0x00000002_00000000_00000006 = some (.neq 0) := by decide
theorem test_decode_lss : decodeTableWord 96 0x00000002_00000000_00000007 = some (.lss 0) := by decide
theorem test_decode_leq : decodeTableWord 96 0x00000002_00000000_00000008 = some (.leq 0) := by decide
theorem test_decode_gtr : decodeTableWord 96 0x00000002_00000000_00000009 = some (.gtr 0) := by decide
theorem test_decode_geq : decodeTableWord 96 0x00000002_00000000_0000000A = some (.geq 0) := by decide
theorem test_decode_oprInvalid : decodeTableWord 96 0x00000002_00000001_FFFFFFFF = some (.oprInvalid 1 (-1)) := by decide
theorem test_decode_lod : decodeTableWord 96 0x00000003_00000001_00000003 = some (.lod 1 3) := by decide
theorem test_decode_sto : decodeTableWord 96 0x00000004_00000000_FFFFFFE1 = some (.sto 0 (-31)) := by decide
theorem test_decode_cal : decodeTableWord 96 0x00000005_80000000_00000015 = some (.cal (-2147483648) 21) := by decide
theorem test_decode_inc : decodeTableWord 96 0x00000006_00000000_FFFFFFFE = some (.inc 0 (-2)) := by decide
theorem test_decode_jmp : decodeTableWord 96 0x00000007_00000000_0000000F = some (.jmp 0 15) := by decide
theorem test_decode_jpc : decodeTableWord 96 0x00000008_00000000_7FFFFFFF = some (.jpc 0 2147483647) := by decide
theorem test_decode_sysPrint : decodeTableWord 96 0x00000009_00000000_00000001 = some (.sysPrint 0) := by decide
theorem test_decode_sysRead : decodeTableWord 96 0x00000009_00000000_00000002 = some (.sysRead 0) := by decide
theorem test_decode_sysHalt : decodeTableWord 96 0x00000009_00000000_00000003 = some (.sysHalt 0) := by decide
theorem test_decode_sysInvalid : decodeTableWord 96 0x00000009_00000000_00000004 = some (.sysInvalid 0 4) := by decide

/-- R68: opcode cells 0, 10 and -1 are no instruction. -/
theorem test_decode_refuses : decodeTableWord 96 0 = none ∧ decodeTableWord 96 0x0000000A_00000000_00000000 = none ∧
    decodeTableWord 96 0xFFFFFFFF_00000003_00000004 = none := by decide

/-! ## Reset and loading -/

theorem test_reset_is_the_empty_load : State.load 500 32 [] [] = .next State.reset := by rfl

/-- V-S9, V-S10: the layout and the initial record of the program of V-S1. -/
theorem test_load_layout : holdsNext
    (State.load 500 32 [⟨1, 0, 5⟩, ⟨1, 0, 3⟩, ⟨2, 0, 1⟩, ⟨9, 0, 1⟩, ⟨9, 0, 3⟩] []) (fun s =>
      decide ((List.range 16).map (fun k => s.mem.read (499 - k)) = [1, 0, 5, 1, 0, 3, 2, 0, 1, 9, 0, 1, 9, 0, 3, 0] ∧
        s.traces = [.header, .initial 499 483 484])) = true := by decide

/-- A word placed in the state after reset is what the next step runs: LIT 0 5, with nothing loaded (`STACK_TOP = 499`). -/
theorem test_withFetchWord_runs : holdsNext (step (State.reset.withFetchWord 96 0x00000001_00000000_00000005))
    (fun t => decide (t.pc = 496 ∧ t.sp = 498 ∧ t.mem.read 498 = 5 ∧ t.run = .running)) = true := by decide

/-! ## LIT and INC -/

/-- V-L1 and V-L2 -/
theorem test_lit : runsTo (unit 1 0 5 468 469 []) 496 468 468 [(468, 5)] = true ∧
    runsTo (unit 1 7 (-2147483648) 468 469 []) 496 468 468 [(468, -2147483648)] = true := by decide

/-- V-L3 -/
theorem test_lit_below_memory : haltsAt (unit 1 0 1 0 0 []) 496 0 0 .addressFault (.address .dataWrite (-1)) = true ∧
    emits (unit 1 0 1 0 0 []) [.diag (.fatal .addressFault (.address .dataWrite (-1)))] = true := by decide

/-- V-L4, V-L6, V-L9 -/
theorem test_inc : runsTo (unit 6 0 4 468 469 []) 496 468 465 [(468, 0), (465, 0)] = true ∧
    runsTo (unit 6 0 (-2) 468 465 []) 496 468 467 [] = true ∧
    runsTo (unit 6 0 3 468 469 [(467, 9)]) 496 468 466 [(467, 9)] = true := by decide

/-- V-L7, V-L8 -/
theorem test_inc_out_of_range :
    haltsAt (unit 6 0 (-1) 468 469 []) 496 468 469 .addressFault (.address .regSP 470) = true ∧
    haltsAt (unit 6 0 470 468 469 []) 496 468 469 .addressFault (.address .regSP (-1)) = true ∧
    runsTo (unit 6 0 469 468 469 []) 496 468 0 [] = true := by decide

/-! ## OPR -/

/-- The vectors' context of a binary operation: `a` the second cell, `b` the top. -/
def opr (m a b : Int) : State := unit 2 0 m 468 467 [(468, a), (467, b)]

/-- The result `r` stands over `a`, and the popped `b` stays. -/
def leaves (m a b r : Int) : Bool := runsTo (opr m a b) 496 468 468 [(468, r), (467, b)]

/-- V-A1, V-A2, V-A2b -/
theorem test_add : leaves 1 5 3 8 = true ∧ leaves 1 2147483647 1 (-2147483648) = true ∧
    leaves 1 (-2147483648) (-1) 2147483647 = true := by decide

/-- V-A13, V-A15 -/
theorem test_add_needs_two_cells :
    haltsAt (unit 2 0 1 468 469 [(469, 4)]) 496 468 469 .addressFault (.address .dataRead 470) = true ∧
    runsTo (unit 2 9 1 468 467 [(468, 5), (467, 3)]) 496 468 468 [(468, 8)] = true := by decide

/-- V-A3b, V-A3c, V-A3d -/
theorem test_sub : leaves 2 3 5 (-2) = true ∧ leaves 2 (-2147483648) 1 2147483647 = true ∧
    leaves 2 0 (-2147483648) (-2147483648) = true := by decide

/-- V-A4, V-A4b, V-A4d -/
theorem test_mul : leaves 3 65536 65536 0 = true ∧ leaves 3 46341 46341 (-2147479015) = true ∧
    leaves 3 (-2147483648) (-1) (-2147483648) = true := by decide

/-- V-A5b, V-A5c, V-A5d, V-A5i, V-A5j -/
theorem test_div : leaves 4 (-7) 2 (-3) = true ∧ leaves 4 7 (-2) (-3) = true ∧ leaves 4 (-7) (-2) 3 = true ∧
    leaves 4 (-2147483648) 2 (-1073741824) = true ∧ leaves 4 2147483647 (-1) (-2147483647) = true := by decide

/-- V-A6, V-A6b, V-A7, V-F7 -/
theorem test_div_faults : haltsAt (opr 4 5 0) 496 468 467 .divideByZero .none = true ∧
    haltsAt (opr 4 0 0) 496 468 467 .divideByZero .none = true ∧
    haltsAt (opr 4 (-2147483648) (-1)) 496 468 467 .divideOverflow .none = true ∧
    haltsAt (unit 2 0 4 468 469 []) 496 468 469 .addressFault (.address .dataRead 470) = true := by decide

/-- V-A8, V-A10, V-A12 -/
theorem test_eql : leaves 5 3 5 0 = true ∧ leaves 5 4 4 1 = true ∧ leaves 5 (-2147483648) 2147483647 0 = true := by decide
theorem test_neq : leaves 6 3 5 1 = true ∧ leaves 6 4 4 0 = true ∧ leaves 6 (-2147483648) 2147483647 1 = true := by decide
theorem test_lss : leaves 7 3 5 1 = true ∧ leaves 7 4 4 0 = true ∧ leaves 7 (-2147483648) 2147483647 1 = true := by decide
theorem test_leq : leaves 8 5 3 0 = true ∧ leaves 8 4 4 1 = true ∧ leaves 8 (-2147483648) 2147483647 1 = true := by decide
theorem test_gtr : leaves 9 5 3 1 = true ∧ leaves 9 4 4 0 = true ∧ leaves 9 (-2147483648) 2147483647 0 = true := by decide
theorem test_geq : leaves 10 3 5 0 = true ∧ leaves 10 4 4 1 = true ∧ leaves 10 (-2147483648) 2147483647 0 = true := by decide

/-- V-A14, V-A14b -/
theorem test_oprInvalid : runsTo (opr 11 5 3) 496 468 467 [(468, 5), (467, 3)] = true ∧
    emits (opr 11 5 3) [.diag (.badOpr 11), .trace (.record ⟨.opr, 0, 11, 496, 468, 467,
      [⟨false, 0⟩, ⟨true, 5⟩, ⟨false, 3⟩]⟩)] = true ∧
    emits (opr (-1) 5 3) [.diag (.badOpr (-1)), .trace (.record ⟨.opr, 0, -1, 496, 468, 467,
      [⟨false, 0⟩, ⟨true, 5⟩, ⟨false, 3⟩]⟩)] = true := by decide

/-! ## base, LOD and STO -/

/-- V-M1 -/
theorem test_base : ∀ k ∈ [((0 : Int), (400 : Int)), (1, 420), (2, 440)],
    base 400 k.1 (mach 499 468 469 [(400, 420), (420, 440)]) = .ok k.2 := fun k hk => by
  simp only [List.mem_cons, List.not_mem_nil, or_false] at hk
  rcases hk with rfl | rfl | rfl <;> rfl

/-- V-M2, V-M3, V-M9, V-M12 -/
theorem test_lod : runsTo (unit 3 0 3 468 465 [(465, 7)]) 496 468 464 [(464, 7)] = true ∧
    runsTo (unit 3 1 3 464 462 [(464, 468), (465, 7)]) 496 464 461 [(461, 7)] = true ∧
    runsTo (unit 3 2 0 468 465 []) 496 468 464 [(464, 0)] = true ∧
    runsTo (unit 3 0 1 464 462 [(464, 468), (463, 468), (462, 478)]) 496 464 461 [(461, 468)] = true := by decide

/-- V-M5, V-M6, V-M8, V-M10, V-M10b, V-F6 -/
theorem test_lod_faults : haltsAt (unit 3 (-1) 0 468 469 []) 496 468 469 .illegalLevel (.level (-1)) = true ∧
    haltsAt (unit 3 0 (-2) 468 469 []) 496 468 469 .addressFault (.address .dataRead 470) = true ∧
    haltsAt (unit 3 0 469 468 469 []) 496 468 469 .addressFault (.address .dataRead (-1)) = true ∧
    haltsAt (unit 3 2 0 468 465 [(468, 480)]) 496 468 465 .addressFault (.address .dataRead 480) = true ∧
    haltsAt (unit 3 1 0 468 465 [(468, 480)]) 496 468 465 .addressFault (.address .dataRead 480) = true ∧
    haltsAt (unit 3 (-1) 469 0 0 []) 496 0 0 .illegalLevel (.level (-1)) = true := by decide

/-- V-M4, V-M13 -/
theorem test_sto : runsTo (unit 4 1 3 464 461 [(464, 468), (461, 7)]) 496 464 462 [(465, 7), (461, 7)] = true ∧
    runsTo (unit 4 0 3 468 465 [(465, 9)]) 496 468 466 [(465, 9)] = true := by decide

/-- V-M7, V-M11 -/
theorem test_sto_faults :
    haltsAt (unit 4 0 (-31) 468 465 [(465, 1)]) 496 468 465 .addressFault (.address .dataWrite 499) = true ∧
    haltsAt (unit 4 0 3 468 469 [(469, 6)]) 496 468 469 .addressFault (.address .regSP 470) = true := by decide

/-! ## Control transfer -/

/-- V-C1, V-C7, and by R22 and R120's pseudocode a CAL fetched from cells 2, 1, 0, which stores -1 (log 23) -/
theorem test_cal : runsTo (mach 481 468 465 [(481, 5), (479, 3)]) 496 464 465 [(464, 468), (463, 468), (462, 478)] = true ∧
    runsTo (unit 5 1 3 464 462 [(464, 468)]) 496 461 462 [(461, 468), (460, 464), (459, 496)] = true ∧
    runsTo (mach 2 468 465 [(2, 5), (0, 3)]) 496 464 465 [(464, 468), (463, 468), (462, -1)] = true := by decide

/-- V-C6, V-C12, V-C13 -/
theorem test_cal_faults : haltsAt (unit 5 0 3 5 2 []) 496 5 2 .addressFault (.address .dataWrite (-1)) = true ∧
    haltsAt (unit 5 0 (-1) 468 465 []) 496 468 465 .addressFault (.address .regPC 500) = true ∧
    haltsAt (unit 5 0 500 468 465 []) 496 468 465 .addressFault (.address .regPC (-1)) = true := by decide

/-- V-C2, V-C9 -/
theorem test_rtn : runsTo (unit 2 0 0 464 461 [(463, 468), (462, 478)]) 478 468 465 [] = true ∧
    runsTo (unit 2 0 0 468 465 []) 0 0 469 [] = true := by decide

/-- V-C8, V-C8b, V-C8c -/
theorem test_rtn_faults : haltsAt (unit 2 0 0 0 0 []) 496 0 0 .addressFault (.address .dataRead (-1)) = true ∧
    haltsAt (unit 2 0 0 1 0 []) 496 1 0 .addressFault (.address .dataRead (-1)) = true ∧
    haltsAt (unit 2 0 0 469 460 []) 496 469 460 .addressFault (.address .regSP 470) = true := by decide

/-- V-C3, V-C3b, V-C3c, V-C3d -/
theorem test_jmp : runsTo (unit 7 0 15 468 469 []) 484 468 469 [] = true ∧
    haltsAt (unit 7 0 500 468 469 []) 496 468 469 .addressFault (.address .regPC (-1)) = true ∧
    haltsAt (unit 7 0 (-1) 468 469 []) 496 468 469 .addressFault (.address .regPC 500) = true ∧
    runsTo (unit 7 0 499 468 469 []) 0 468 469 [] = true := by decide

/-- V-C4, V-C10 -/
theorem test_jpc : runsTo (unit 8 0 42 468 467 []) 457 468 468 [] = true ∧
    runsTo (unit 8 0 42 468 467 [(467, 3)]) 496 468 468 [(467, 3)] = true ∧
    runsTo (unit 8 0 42 468 467 [(467, -1)]) 496 468 468 [] = true ∧
    runsTo (unit 8 0 9999 468 467 [(467, 1)]) 496 468 468 [] = true := by decide

/-- V-C5, V-C10b -/
theorem test_jpc_faults : haltsAt (unit 8 0 42 468 469 []) 496 468 469 .addressFault (.address .regSP 470) = true ∧
    haltsAt (unit 8 0 9999 468 467 []) 496 468 467 .addressFault (.address .regPC (-9500)) = true := by decide

/-! ## System calls -/

/-- V-Y1, V-Y8 -/
theorem test_print : runsTo (unit 9 0 1 468 468 [(468, 8)]) 496 468 469 [] = true ∧
    emits (unit 9 0 1 468 468 [(468, 8)]) [.output (.print 8), .trace (.record ⟨.sys, 0, 1, 496, 468, 469, [⟨false, 0⟩]⟩)] = true ∧
    emits (unit 9 0 1 468 469 [(469, 4)]) [.diag (.fatal .addressFault (.address .regSP 470))] = true := by decide

/-- V-Y2 -/
theorem test_read : runsTo (unit 9 0 2 468 465 [] [.int 12]) 496 468 464 [(464, 12)] = true ∧
    holdsNext (step (unit 9 0 2 468 465 [] [.int 12])) (fun t => decide (t.inpos = 1 ∧ t.output = [.prompt])) = true := by decide

/-- V-Y3, V-Y4, V-Y7, and a number that fits no cell (R152) -/
theorem test_read_fails : haltsAt (unit 9 0 2 468 465 [(464, 99)] [.fail]) 496 468 464 .inputFault .none = true ∧
    haltsAt (unit 9 0 2 468 465 []) 496 468 464 .inputFault .none = true ∧
    emits (unit 9 0 2 468 465 []) [.output .prompt, .diag (.fatal .inputFault .none)] = true ∧
    haltsAt (unit 9 0 2 468 465 [] [.int 2147483648]) 496 468 464 .inputFault .none = true ∧
    emits (unit 9 0 2 0 0 [] [.int 5]) [.diag (.fatal .addressFault (.address .dataWrite (-1)))] = true := by decide

/-- V-Y5, V-Y5b -/
theorem test_halt : haltsAt (unit 9 5 3 468 469 []) 496 468 469 .halt .none = true ∧
    emits (unit 9 0 3 468 469 []) [.trace (.record ⟨.sys, 0, 3, 496, 468, 469, [⟨false, 0⟩]⟩)] = true := by decide

/-- V-Y6 -/
theorem test_sysInvalid : emits (unit 9 0 7 468 469 []) [.diag (.badSys 7),
      .trace (.record ⟨.sys, 0, 7, 496, 468, 469, [⟨false, 0⟩]⟩)] = true ∧
    runsTo (unit 9 0 (-3) 468 469 []) 496 468 469 [] = true := by decide

/-! ## Step and fetch -/

/-- V-F1, V-F1b, V-F1c -/
theorem test_illegal_opcode : haltsAt (unit 0 0 0 468 469 []) 496 468 469 .illegalOpcode (.opcode 0) = true ∧
    haltsAt (unit 10 0 0 468 469 []) 496 468 469 .illegalOpcode (.opcode 10) = true ∧
    haltsAt (unit (-1) 3 4 468 469 []) 496 468 469 .illegalOpcode (.opcode (-1)) = true := by decide

/-- V-F2, V-F2b, V-F2c, V-F2d -/
theorem test_fetch_low : haltsAt (mach 1 468 469 []) 1 468 469 .addressFault (.address .fetch (-1)) = true ∧
    haltsAt (mach 0 468 469 []) 0 468 469 .addressFault (.address .fetch (-1)) = true ∧
    runsTo (mach 2 468 469 [(2, 7)]) 499 468 469 [] = true ∧
    haltsAt (mach 2 468 469 [(2, 1), (0, 5)]) (-1) 468 469 .addressFault (.address .regPC (-1)) = true := by decide

/-- V-F4, V-F5, V-F5b -/
theorem test_fetch_anywhere : runsTo (mach 468 468 460 [(468, 1), (466, 9)]) 465 468 459 [(459, 9)] = true ∧
    haltsAt (mach 471 468 465 [(470, 3), (469, 33)]) 468 468 465 .illegalOpcode (.opcode 0) = true ∧
    runsTo (mach 470 468 465 [(470, 3), (468, 4)]) 467 468 464 [(464, 0)] = true := by decide

/-! ## Witnesses: for every statement with hypotheses, states and operands that meet them, a clause at a time and at the
boundary of its range -/

/-- DecodeOfEncodeIsTheInstruction, PackedWordRoundTrip -/
theorem witness_wellFormed : ∀ i ∈ [Instr.lit 2147483647 (-2147483648), .rtn 0, .add 0, .sub 0, .mul 0, .div (-1), .eql 0, .neq 0,
    .lss 0, .leq 0, .gtr 0, .geq 0, .oprInvalid 0 11, .oprInvalid 0 (-1), .lod (-2147483648) 2147483647, .sto 0 0, .cal 0 0,
    .inc 0 0, .jmp 0 0, .jpc 0 0, .sysPrint 0, .sysRead 0, .sysHalt 0, .sysInvalid 0 0, .sysInvalid 0 4],
    WellFormed 32 i = true := by decide

/-- EncodeOfDecodeIsTheTriplet -/
theorem witness_encodeOfDecode : Triplet.IsCells 32 ⟨9, -2147483648, 2147483647⟩ ∧
    decode ⟨9, -2147483648, 2147483647⟩ = .ok (.sysInvalid (-2147483648) 2147483647) := by decide

/-- OpcodeTableAgreesWithDecoder: at the bounds, a word of a row and one of none -/
theorem witness_tableWord : 0x000000020000000000000000 < 2 ^ 96 ∧ 2 ^ 96 - 1 < 2 ^ 96 ∧
    (tableRow 0x000000020000000000000000).map TableRow.mnemonic = some "RTN" ∧ tableRow (2 ^ 96 - 1) = none := by decide

/-- WrapIsTheCongruentCell -/
theorem witness_wrap : 1 ≤ 1 ∧ IsCell 1 (-1) ∧ ((2 ^ 1 : Nat) : Int) ∣ -1 - 1 ∧ wrap 1 1 = -1 := by decide

/-- StepRunsTheDecodedInstruction, at both bounds of PC -/
theorem witness_stepRuns : ((mach 2 468 469 [(2, 7)]).run = .running ∧
      decode (mach 2 468 469 [(2, 7)]).fetched = .ok (.jmp 0 0)) ∧
    (499 ≤ (unit 9 0 3 468 469 []).params.N - 1 ∧ decode (unit 9 0 3 468 469 []).fetched = .ok (.sysHalt 0)) := by decide

/-- FetchPhase: PC at 2, 1, 0 and at the top of memory -/
theorem witness_fetchPhase : ∀ pc ∈ [(0 : Int), 1, 2, 499],
    (mach pc 468 469 []).Inv ∧ (mach pc 468 469 []).run = .running := by decide

/-- IllegalOpcodeHalts: the opcode on either side of 1..9 -/
theorem witness_illegalOpcode : (unit 0 0 0 468 469 []).Inv ∧ (unit 0 0 0 468 469 []).fetched.op < 1 ∧
    (mach 2 468 469 [(2, 10)]).Inv ∧ 9 < (mach 2 468 469 [(2, 10)]).fetched.op := by decide

/-- A halted state: V-Y5 after its step. -/
def ended : State := (unit 9 0 3 468 469 []).endRun .halt

/-- StepExistsExactlyWhileRunning -/
theorem witness_stepExists : ended.run = .halted ∧ State.reset.run = .running := by decide

/-- CheckPhaseTestsPcThenBpThenSp: each clause on both sides of its range, and the boundary values that are in range -/
theorem witness_checkPhase :
    (∀ pc ∈ [(-1 : Int), 500], ¬ (0 ≤ pc ∧ pc ≤ (mach pc 468 469 []).params.N - 1)) ∧
    (∀ bp ∈ [(-1 : Int), 470], ¬ (0 ≤ bp ∧ bp ≤ (mach 499 bp 470 []).params.stackTop)) ∧
    (∀ sp ∈ [(-1 : Int), 470], ¬ (0 ≤ sp ∧ sp ≤ (mach 0 469 sp []).params.stackTop)) ∧
    checkRegisters (mach 0 0 469 []) = none ∧ checkRegisters (mach 499 469 0 []) = none := by decide

/-- HaltedStateForEachCause, and the statements about any step of a legitimate running state: one state for each cause. -/
theorem witness_causes : ∀ x ∈ [(unit 9 0 3 468 469 [], Cause.halt), (unit 10 0 0 468 469 [], .illegalOpcode),
    (unit 9 0 2 468 1 [], .inputFault), (mach 1 468 469 [], .addressFault), (unit 2 0 0 1 0 [], .addressFault),
    (opr 4 5 0, .divideByZero), (opr 4 (-2147483648) (-1), .divideOverflow), (unit 5 (-1) 0 468 0 [], .illegalLevel)],
    x.1.Inv ∧ x.1.run = .running ∧ holdsNext (step x.1) (fun t => decide (t.run = .halted ∧ t.cause = x.2)) = true := by decide

/-- NegativeLevelIsIllegalOnLodStoCalOnly -/
theorem witness_negativeLevel : (-1 : Int) < 0 ∧ (mach 496 468 469 []).cause ≠ .illegalLevel ∧
    ∀ i ∈ [Instr.lod (-1) 0, .sto (-1) 0, .cal (-2147483648) 0],
      holdsNext (exec i (mach 496 468 469 [])) (fun t => decide (t.cause = .illegalLevel)) = true := by decide

/-- OnlyTheHaltCallEndsNormally -/
theorem witness_endsNormally : (unit 9 7 3 468 469 []).Inv ∧ (unit 9 7 3 468 469 []).run = .running ∧
    holdsNext (step (unit 9 7 3 468 469 [])) (fun t => decide t.EndedNormally) = true := by decide

/-- EventsOfOneStep: a fault, a failed read, and a completed instruction of every shape -/
theorem witness_events : ∀ s ∈ [mach 0 468 469 [], unit 9 0 2 468 469 [], unit 9 0 2 468 469 [] [.int 0], unit 9 0 1 468 468 [],
    opr 11 0 0, unit 9 0 0 468 469 [], unit 6 0 0 468 469 []], holdsNext (step s) (fun _ => true) = true := by decide

/-- LoadGivesTheResetState, LoadedStateIsLegitimate: the least capacity with no program, and a program that leaves two cells -/
theorem witness_load : (2 ≤ 2 ∧ 3 * 0 ≤ 2 - 2 ∧ 2 ≤ 2 ^ (2 - 1)) ∧
    (2 ≤ 5 ∧ 3 * [Triplet.mk 9 0 3].length ≤ 5 - 2 ∧ 5 ≤ 2 ^ (5 - 1) ∧ ∀ t ∈ [Triplet.mk 9 0 3], t.IsCells 5) ∧
    holdsNext (State.load 2 2 [] []) (fun _ => true) = true ∧
    holdsNext (State.load 5 5 [⟨9, 0, 3⟩] []) (fun _ => true) = true := by decide

/-- InvalidConfigurationIsRefused: each constraint broken by one -/
theorem witness_invalidConfiguration : 1 < 2 ∧ 4 - 2 < 3 * [Triplet.mk 9 0 3].length ∧ 2 ^ (2 - 1) < 3 := by decide

/-- StepKeepsTheInvariant, StepNeverChangesTheCode: a state that writes its last data cell -/
theorem witness_step : (unit 4 0 (-1) 468 468 [(468, 7)]).Inv ∧
    runsTo (unit 4 0 (-1) 468 468 [(468, 7)]) 496 468 469 [(469, 7), (499, 4)] = true := by decide

/-- LoadedProgramSurvivesEveryRun: V-P1 on 20 cells, to its end -/
theorem witness_survives : holdsNext (State.load 20 32 [⟨1, 0, 5⟩, ⟨1, 0, 3⟩, ⟨2, 0, 1⟩, ⟨9, 0, 1⟩, ⟨9, 0, 3⟩] [])
    (fun s => match core.run 5 s with
      | .next t => decide (State.pc t = 4 ∧ Memory.read (State.mem t) 3 = 8 ∧ State.output t = [.print 8])
      | _ => false) = true := by decide

/-- PortsAndIrDoNotInfluenceExecution: two different states of the same machine -/
theorem witness_sameMachine : SameMachine State.reset ((State.reset.setIr ⟨9, 9, 9⟩).emit (.output .prompt)) ∧
    holdsNext (step State.reset) (fun _ => true) = true := by
  refine ⟨⟨rfl, rfl, rfl, rfl, rfl, rfl, rfl, rfl⟩, ?_⟩; decide

/-- RegistersChangeOnlyWhereTheTableSays: BP, PC, SP and a cell that change -/
theorem witness_changes : (unit 5 0 0 468 467 []).Inv ∧
    holdsNext (step (unit 5 0 0 468 467 [])) (fun t => decide (t.bp ≠ 468 ∧ t.pc ≠ 496 ∧ t.mem.read 466 ≠ 0)) = true ∧
    (mach 0 468 469 []).Inv ∧ holdsNext (step (mach 0 468 469 [])) (fun t => decide (t.pc ≠ -3)) = true ∧
    (unit 6 0 1 468 469 []).Inv ∧ holdsNext (step (unit 6 0 1 468 469 [])) (fun t => decide (t.sp ≠ 469)) = true :=
  ⟨by decide, by decide, by decide, by decide, by decide, by decide⟩

/-- InputAndOutputOnlyThroughSystemCalls -/
theorem witness_inputOutput : (unit 9 0 2 468 469 []).Inv ∧
    holdsNext (step (unit 9 0 2 468 469 [])) (fun t => decide (t.inpos ≠ 0 ∧ t.output ≠ [])) = true := by decide

/-- CanonicalMemoriesThatReadAlikeAreEqual -/
theorem witness_canonical : Memory.wf [(0, 1), (7, -1)] ∧ Memory.wf (cells [(7, -1), (3, 5), (0, 1), (3, 0)]) := by decide

/-- StackListRunsFromStackTopToSp: the list of one cell, and one with the mark -/
theorem witness_stackList : (469 : Int) ≤ (mach 496 468 469 []).params.stackTop ∧
    (stackList (mach 496 468 469 []))[0]? = some ⟨false, 0⟩ ∧
    (stackList (mach 496 468 467 [(468, 5)]))[1]? = some ⟨true, 5⟩ := by decide

/-- The instruction statements that push (LIT, LOD, SYS.READ) or ask nothing of SP (INC, JMP, reserved modifiers, SYS.HALT):
SP 1 and 0, PC 0, -1 and the highest address after a fetch. -/
theorem witness_push : ∀ s ∈ [mach 0 468 1 [], mach 496 0 0 [], mach (-1) 469 1 [], mach (-1) 469 469 []], s.Fetched := by decide

/-- IncMovesSpAndWritesNothing: the modifiers at the bounds, from SP 469 -/
theorem witness_inc : (mach 0 468 469 []).Fetched ∧ (469 : Int) - 469 = 0 ∧ (469 : Int) - 0 ≤ (mach 0 468 469 []).params.stackTop ∧
    (469 : Int) - 470 < 0 ∧ (mach 0 468 469 []).params.stackTop < 469 - (-1) := by decide

/-- The statements that pop (OPR, STO, JPC, SYS.PRINT): one cell below STACK_TOP, and at it; PC 0 and -1 -/
theorem witness_pop : ∀ pc ∈ [(0 : Int), -1, 496], (mach pc 468 468 []).Fetched ∧ (468 : Int) < (mach pc 468 468 []).params.stackTop ∧
    (mach pc 468 469 []).Fetched ∧ (469 : Int) = (mach pc 468 469 []).params.stackTop := by decide

/-- DivTruncatesTowardZero: a divisor 0, the overflow, and the values beside it -/
theorem witness_div : ∀ pc ∈ [(0 : Int), -1],
    ((mach pc 468 468 [(469, 7)]).Fetched ∧ (mach pc 468 468 [(469, 7)]).top = 0) ∧
    ((mach pc 468 468 [(469, -2147483648), (468, -1)]).Fetched ∧
      (mach pc 468 468 [(469, -2147483648), (468, -1)]).second = intMin 32 ∧
      (mach pc 468 468 [(469, -2147483648), (468, -1)]).top = -1) ∧
    ((mach pc 468 468 [(469, -2147483647), (468, -1)]).Fetched ∧
      (mach pc 468 468 [(469, -2147483647), (468, -1)]).second ≠ intMin 32 ∧
      (mach pc 468 468 [(469, -2147483647), (468, -1)]).top ≠ 0) := by
  intro pc hpc
  simp only [List.mem_cons, List.not_mem_nil, or_false] at hpc
  rcases hpc with rfl | rfl <;> exact ⟨by decide, by decide, by decide⟩

/-- DivisionLawHolds: at the extremes, and at W = 1 -/
theorem witness_divisionLaw : (IsCell 32 (-2147483648) ∧ IsCell 32 2147483647 ∧ divCells 32 (-2147483648) 2147483647 = .ok (-1)) ∧
    (1 ≤ 1 ∧ IsCell 1 0 ∧ IsCell 1 (-1) ∧ divCells 1 0 (-1) = .ok 0) := ⟨⟨by decide, by decide, rfl⟩, by decide, by decide, by decide, rfl⟩

/-- ReservedModifiersOnlyReport: the reserved modifiers nearest to the selectors -/
theorem witness_reserved : ((-1 : Int) < 0 ∧ (10 : Int) < 11) ∧ ((0 : Int) < 1 ∧ (3 : Int) < 4) := by decide

/-- BaseWalksTheStaticChain: the chain 400, 420, 440 of V-M1, and one that leaves the data region at 470 or at -1 -/
theorem witness_base : (∀ j < 2, let chain : Nat → Int := fun j => 400 + 20 * j
      0 ≤ chain j ∧ chain j ≤ (mach 496 468 469 [(400, 420), (420, 440)]).params.stackTop ∧
      (mach 496 468 469 [(400, 420), (420, 440)]).mem.read (chain j).toNat = chain (j + 1)) ∧
    (∀ v ∈ [(470 : Int), -1], (mach 496 468 469 [(469, v)]).mem.read (469 : Int).toNat = v ∧
      (v < 0 ∨ (mach 496 468 469 [(469, v)]).params.stackTop < v)) := by decide

/-- LodPushesTheAddressedCell, StoStoresTheTopAndPops: a base, and the modifiers for the effective addresses 0, 469, -1, 470 -/
theorem witness_effectiveAddress : (∃ b, base 468 1 (mach 496 468 465 [(468, 464)]) = .ok b ∧ b - 464 = 0 ∧
      b - (-5) = (mach 496 468 465 [(468, 464)]).params.stackTop ∧ b - 465 < 0 ∧
      (mach 496 468 465 [(468, 464)]).params.stackTop < b - (-6)) ∧
    (∃ tr, base 468 2 (mach 496 468 465 [(468, 480)]) = .error tr) ∧ (mach 496 468 465 [(468, 480)]).Fetched :=
  ⟨⟨464, rfl, by decide⟩, ⟨_, rfl⟩, by decide⟩

/-- CalBuildsTheRecordAndJumps: SP 3 and 2, the modifiers 0, N - 1 and one beyond each, and a base that fails -/
theorem witness_cal : (mach 496 468 3 []).Fetched ∧ (mach (-1) 468 2 []).Fetched ∧ (499 : Int) ≤ (mach 496 468 3 []).params.N - 1 ∧
    ((-1 : Int) < 0 ∧ (mach 496 468 3 []).params.N - 1 < (500 : Int)) ∧
    (∃ sl, base 468 0 (mach 496 468 3 []) = .ok sl) ∧ (∃ tr, base 468 (-1) (mach 496 468 3 []) = .error tr) :=
  ⟨by decide, by decide, by decide, by decide, ⟨_, rfl⟩, ⟨_, rfl⟩⟩

/-- RtnRestoresTheCaller: a return, BP 1, each of the two saved cells out of range by one, and BP at STACK_TOP -/
theorem witness_rtn : (mach 496 2 1 [(1, 469), (0, 499)]).Fetched ∧ (mach 496 1 0 []).Fetched ∧
    (∀ v ∈ [(500 : Int), -1], (mach 496 464 461 [(462, v)]).Fetched ∧ ¬ (0 ≤ v ∧ v ≤ (mach 496 464 461 [(462, v)]).params.N - 1)) ∧
    (∀ v ∈ [(470 : Int), -1], (mach 496 464 461 [(463, v)]).Fetched ∧
      ¬ (0 ≤ v ∧ v ≤ (mach 496 464 461 [(463, v)]).params.stackTop)) ∧
    (mach 496 469 460 []).Fetched ∧ (469 : Int) = (mach 496 469 460 []).params.stackTop :=
  ⟨by decide, by decide, by decide, by decide, by decide, by decide⟩

/-- JmpGoesToItsTarget, JpcPopsAndBranchesOnZero: targets at both ends of memory and one beyond each, a top that is 0 and one
that is not, and a branch not taken after the lowest fetch -/
theorem witness_jump : (mach 0 468 468 []).Fetched ∧ (mach 0 468 468 []).top = 0 ∧ (0 ≤ (499 : Int) - 499 ∧ (499 : Int) - 0 ≤ 499) ∧
    ((499 : Int) - 500 < 0 ∧ (499 : Int) < 499 - (-1)) ∧
    (mach (-1) 468 468 [(468, 1)]).Fetched ∧ (mach (-1) 468 468 [(468, 1)]).top ≠ 0 := by decide

/-- CalThenRtnRestoresTheRegisters: a CAL with SP 3, and the state it leaves taken back after a fetch -/
theorem witness_calThenRtn : (mach 0 468 3 []).Fetched ∧
    holdsNext (exec (.cal 0 3) (mach 0 468 3 [])) (fun c => decide (c.run = .running ∧ c.mem = cells [(2, 468), (1, 468)])) = true ∧
    (mach 493 2 0 [(2, 468), (1, 468)]).Fetched ∧ (mach 493 2 0 [(2, 468), (1, 468)]).params = (mach 0 468 3 []).params ∧
    (mach 493 2 0 [(2, 468), (1, 468)]).bp = 3 - 1 := by decide

/-- SelfJumpNeverHalts: at the top of memory, and at the lowest address an instruction can be fetched from -/
theorem witness_selfJump : (unit 7 0 0 468 469 []).Inv ∧ (unit 7 0 0 468 469 []).fetched = ⟨7, 0, 499 - 499⟩ ∧
    (mach 2 468 469 [(2, 7), (0, 497)]).Inv ∧ (mach 2 468 469 [(2, 7), (0, 497)]).fetched = ⟨7, 0, 499 - 2⟩ := by decide

/-- ReadPromptsAndPushes: a number that fits at the bound, one that does not, a `Fail` and the end of the input, with SP 1; SP 0 -/
theorem witness_read : (∀ pc ∈ [(0 : Int), -1], (mach pc 468 1 [] [.int 2147483647]).Fetched) ∧ IsCell 32 2147483647 ∧
    ¬ IsCell 32 2147483648 ∧ (mach 0 468 1 [] [.int 2147483648]).Fetched ∧ (mach 0 468 1 [] [.fail]).Fetched ∧
    (mach 0 468 1 []).params.input[(mach 0 468 1 []).inpos]? = none ∧ (mach 0 468 0 []).Fetched :=
  ⟨by decide, by decide, by decide, by decide, by decide, by decide, by decide⟩

end Sys2Proof.Tests
end

section
/-! PROOFS. The scope of the model (spec/00_scope.md): the value `wrap_W` gives (R8), and which configurations have a reset
state and what it is (R7, R200). -/

namespace Sys2Proof

/-! ## Cells and `wrap` -/

/-- The cell range of a positive width is the range of the balanced remainder modulo `2^W`. -/
theorem isCell_iff_balanced {W : Nat} (hW : 1 ≤ W) (v : Int) :
    IsCell W v ↔ -(((2 ^ W : Nat) : Int) / 2) ≤ v ∧ v < (((2 ^ W : Nat) : Int) + 1) / 2 := by
  have hpow : 2 ^ W = 2 * 2 ^ (W - 1) := (mul_pow_sub_one (by omega) 2).symm
  unfold IsCell intMin intMax
  omega

/-- `wrap W x` is characterised by its range and its congruence class (R8). -/
theorem wrap_eq_iff {W : Nat} (hW : 1 ≤ W) {x y : Int} :
    wrap W x = y ↔ IsCell W y ∧ ((2 ^ W : Nat) : Int) ∣ y - x := by
  rw [wrap, Int.bmod_eq_iff (Nat.two_pow_pos W), isCell_iff_balanced hW, and_assoc]

theorem isCell_wrap {W : Nat} (hW : 1 ≤ W) (x : Int) : IsCell W (wrap W x) :=
  ((wrap_eq_iff hW).mp rfl).1

theorem dvd_wrap_sub (W : Nat) (x : Int) : ((2 ^ W : Nat) : Int) ∣ wrap W x - x :=
  Int.dvd_bmod_sub_self

theorem isCell_zero (W : Nat) : IsCell W 0 := by
  have := Nat.two_pow_pos (W - 1)
  unfold IsCell intMin intMax
  omega

/-- Settles O6: range and congruence characterise the balanced remainder, so the value is unique too. -/
theorem wrapIsTheCongruentCell : Obligations.WrapIsTheCongruentCell := fun W x hW =>
  ⟨isCell_wrap hW x, dvd_wrap_sub W x, fun _ hy hdvd => ((wrap_eq_iff hW).mpr ⟨hy, hdvd⟩).symm⟩

namespace Machine

/-! ## What loading gives -/

/-- The configurations and programs that have a reset state: the constraints of R7, and every program value a cell. -/
def Loadable (N W : Nat) (prog : List Triplet) (input : List InputItem) : Prop :=
  Params.Valid ⟨N, W, prog.length, input⟩ ∧ ∀ t ∈ prog, t.IsCells W

/-- The reset state that `State.load` gives where it gives one (`load_eq_next_iff`). -/
def loadedState (N W : Nat) (prog : List Triplet) (input : List InputItem) : State :=
  let p : Params := ⟨N, W, prog.length, input⟩
  { params := p
    mem := placeProgram N 0 prog []
    pc := N - 1
    bp := p.stackTop - 1
    sp := p.stackTop
    ir := ⟨0, 0, 0⟩
    run := .running
    cause := .none
    finfo := .none
    inpos := 0
    ports := [.trace .header, .trace (.initial (N - 1) (p.stackTop - 1) p.stackTop)]
    unspec := 0 }

section
variable {N W : Nat} {prog : List Triplet} {input : List InputItem}

@[simp] theorem loadedState_params : (loadedState N W prog input).params = ⟨N, W, prog.length, input⟩ := rfl
@[simp] theorem loadedState_mem : (loadedState N W prog input).mem = placeProgram N 0 prog [] := rfl
@[simp] theorem loadedState_pc : (loadedState N W prog input).pc = N - 1 := rfl
@[simp] theorem loadedState_bp :
    (loadedState N W prog input).bp = (loadedState N W prog input).params.stackTop - 1 := rfl
@[simp] theorem loadedState_sp : (loadedState N W prog input).sp = (loadedState N W prog input).params.stackTop := rfl

theorem load_of_loadable (h : Loadable N W prog input) :
    State.load N W prog input = .next (loadedState N W prog input) :=
  if_pos h

theorem load_of_not_loadable (h : ¬ Loadable N W prog input) : State.load N W prog input = .refused .badConfiguration :=
  if_neg h

/-- The one lemma about a successful load: what it asks, and the state it gives. -/
theorem load_eq_next_iff {s : State} :
    State.load N W prog input = .next s ↔ Loadable N W prog input ∧ s = loadedState N W prog input := by
  by_cases h : Loadable N W prog input
  · simp [load_of_loadable h, h, eq_comm]
  · simp [load_of_not_loadable h, h]

/-- Three cells an instruction, and two more, fit in memory (R7). -/
theorem Loadable.program_fits (h : Loadable N W prog input) : 3 * (0 + prog.length) ≤ N := by
  obtain ⟨⟨hN, hn, -⟩, -⟩ := h
  simp only at hN hn
  omega

theorem loadedState_mem_wf : (loadedState N W prog input).mem.wf :=
  placeProgram_wf N prog 0 [] Memory.wf_nil

theorem loadedState_mem_fits (h : Loadable N W prog input) : (loadedState N W prog input).mem.Fits N W :=
  placeProgram_fits N W prog 0 [] (by simp [Memory.Fits]) h.program_fits h.2

/-- Memory is by the lemmas about `placeProgram`; BP and SP stand at the top of a data region of at least two cells. -/
theorem loadedState_inv (h : Loadable N W prog input) : (loadedState N W prog input).Inv := by
  have hvalid : (loadedState N W prog input).params.Valid := h.1
  have htop := stackTop_pos hvalid
  have hpc : 0 ≤ (loadedState N W prog input).pc ∧ (loadedState N W prog input).pc ≤ N - 1 := by
    have hN : 2 ≤ N := hvalid.1
    rw [loadedState_pc]
    omega
  refine ⟨hvalid, loadedState_mem_wf, loadedState_mem_fits h, ?bp, ?sp, ?pc, ?ir, ?running, ?halted⟩
  case bp => rw [loadedState_bp]; omega
  case sp => rw [loadedState_sp]; omega
  case pc => exact ⟨by omega, hpc.2⟩
  case ir => exact ⟨isCell_zero W, isCell_zero W, isCell_zero W⟩
  case running => exact fun _ => ⟨hpc.1, rfl⟩
  case halted => exact fun hrun => nomatch hrun

end

/-- Settles O21: a load that succeeds gives `loadedState` of a loadable configuration. -/
theorem loadedStateIsLegitimate : Obligations.LoadedStateIsLegitimate := by
  intro N W prog input s hload
  obtain ⟨hloadable, rfl⟩ := load_eq_next_iff.mp hload
  exact loadedState_inv hloadable

/-- Settles O19: each disjunct contradicts one constraint of R7. -/
theorem invalidConfigurationIsRefused : Obligations.InvalidConfigurationIsRefused := by
  intro N W prog input hbroken
  refine load_of_not_loadable fun ⟨⟨hN, hn, hW⟩, _⟩ => ?_
  simp only at hN hn hW
  omega

end Machine
end Sys2Proof
end

section
/-! PROOFS. Every step keeps the invariant (spec/10_state.md R20, R26, R28; spec/60_exceptions.md R176): what stands in memory
and in IR are cells, and the registers are in range. -/

namespace Sys2Proof

/-! ## Values that are cells -/

/-- Decoding loses nothing of the three cells (R63, R66). -/
theorem encode_decodeOpr (l m : Int) : encode (decodeOpr l m) = ⟨2, l, m⟩ := by
  by_cases h : IsReservedOpr m
  · rw [decodeOpr_reserved h]; rfl
  · obtain ⟨h0, h1⟩ := not_or.mp h
    interval_cases m <;> rfl

theorem encode_decodeSys (l m : Int) : encode (decodeSys l m) = ⟨9, l, m⟩ := by
  by_cases h : IsReservedSys m
  · rw [decodeSys_reserved h]; rfl
  · obtain ⟨h0, h1⟩ := not_or.mp h
    interval_cases m <;> rfl

theorem encode_of_decode {t : Triplet} {i : Instr} (h : decode t = .ok i) : encode i = t := by
  obtain ⟨op, l, m⟩ := t
  simp only [decode] at h
  repeat' split at h
  all_goals cases h <;> subst op
  exacts [rfl, encode_decodeOpr l m, rfl, rfl, rfl, rfl, rfl, rfl, encode_decodeSys l m]

/-- A width of 0 would leave room for one cell of memory (R7). -/
theorem one_le_width {p : Params} (h : p.Valid) : 1 ≤ p.W := by
  obtain ⟨hN, -, hW⟩ := h
  by_contra hlt
  rw [show p.W - 1 = 0 by omega] at hW
  omega

/-- A configuration's cells are wide enough for every address, and for -1 (R7). -/
theorem isCell_of_address {p : Params} (h : p.Valid) {a : Int} (h0 : -1 ≤ a) (h1 : a ≤ p.N - 1) : IsCell p.W a := by
  obtain ⟨hN, -, hW⟩ := h
  unfold IsCell intMin intMax
  omega

/-- The quotient is no larger than the dividend, and the one quotient as large that is no cell is trapped (R94). -/
theorem isCell_tdiv {W : Nat} {a b : Int} (ha : IsCell W a) (hb : b ≠ 0) (h : ¬ (a = intMin W ∧ b = -1)) :
    IsCell W (a.tdiv b) := by
  have hpow := Nat.two_pow_pos (W - 1)
  have habs : (a.tdiv b).natAbs = a.natAbs / b.natAbs := Int.natAbs_tdiv a b
  unfold IsCell intMin intMax at *
  by_cases hone : b.natAbs = 1
  · rcases Int.natAbs_eq b with hb' | hb' <;> rw [hone] at hb' <;> subst hb'
    · simpa using ha
    · simp only [Nat.cast_one, Int.tdiv_neg, Int.tdiv_one]
      omega
  · have : a.natAbs / b.natAbs ≤ a.natAbs / 2 := Nat.div_le_div_left (by omega) (by omega)
    omega

namespace Machine

theorem isCell_of_divCells {W : Nat} {a b q : Int} (ha : IsCell W a) (h : divCells W a b = .ok q) : IsCell W q := by
  unfold divCells at h
  split_ifs at h with hb hmin
  obtain rfl := Except.ok.inj h
  rw [tdiv_eq_tdiv]
  exact isCell_tdiv ha hb hmin

theorem isCell_truth {p : Params} (h : p.Valid) (b : Bool) : IsCell p.W (truth b) := by
  have hN := h.1
  cases b <;> exact isCell_of_address h (by decide) (by simp [truth]; omega)

/-! ## States that hold cells -/

/-- Memory's cells lie below `N`, and they and the three of IR hold `W`-bit values (R25, R28). -/
structure State.HoldsCells (s : State) : Prop where
  mem : s.mem.Fits s.params.N s.params.W
  ir : s.ir.IsCells s.params.W

theorem unspecifiedIr_isCells {W : Nat} (hW : 1 ≤ W) (k : Nat) : (unspecifiedIr W k).IsCells W :=
  ⟨isCell_wrap hW _, isCell_wrap hW _, isCell_wrap hW _⟩

theorem State.HoldsCells.endRun {s : State} (h : s.HoldsCells) (hp : s.params.Valid) (c : Cause) :
    (s.endRun c).HoldsCells :=
  ⟨h.mem, unspecifiedIr_isCells (one_le_width hp) _⟩

theorem State.HoldsCells.dataRead {s : State} (h : s.HoldsCells) {a v : Int} (hr : dataRead a s = .ok v) :
    IsCell s.params.W v :=
  (dataRead_eq_ok.mp hr).2 ▸ isCell_read h.mem _

theorem State.HoldsCells.dataWrite {s t : State} (h : s.HoldsCells) {a v : Int} (hv : IsCell s.params.W v)
    (hw : dataWrite a v s = .ok t) : t.params = s.params ∧ t.HoldsCells := by
  obtain ⟨⟨h0, h1⟩, rfl⟩ := dataWrite_eq_ok.mp hw
  have := stackTop_lt s.params
  exact ⟨rfl, Memory.fits_write h.mem (by omega) hv, h.ir⟩

theorem State.HoldsCells.walk {s : State} (h : s.HoldsCells) {k : Nat} {a v : Int} (ha : IsCell s.params.W a)
    (hw : walk s k a = .ok v) : IsCell s.params.W v := by
  induction k generalizing a with
  | zero => exact Except.ok.inj hw ▸ ha
  | succ k ih =>
    unfold Machine.walk at hw
    split at hw
    · next hr => exact ih (h.dataRead hr) hw
    · cases hw

theorem State.HoldsCells.base {s : State} (h : s.HoldsCells) {b l v : Int} (hb : IsCell s.params.W b)
    (hw : base b l s = .ok v) : IsCell s.params.W v := by
  unfold Machine.base at hw
  split at hw
  · cases hw
  · exact h.walk hb hw

theorem State.HoldsCells.binary {s t : State} (h : s.HoldsCells) {f : Int → Int → Except Trap Int}
    (hf : ∀ a b r, IsCell s.params.W a → f a b = .ok r → IsCell s.params.W r) (hb : binary f s = .ok t) :
    t.HoldsCells := by
  obtain ⟨h0, h1, r, hr, rfl⟩ := binary_eq_ok hb
  have := stackTop_lt s.params
  exact ⟨Memory.fits_write h.mem (by omega) (hf _ _ _ (isCell_read h.mem _) hr), h.ir⟩

theorem isCell_nextInput {s : State} {v : Int} (h : nextInput s = .int v) : IsCell s.params.W v := by
  unfold nextInput at h
  split at h
  · split at h
    · next hv => exact InputItem.int.inj h ▸ hv
    · cases h
  · cases h

/-! ## Sound states -/

/-- The part of the invariant that does not speak of RUN and CAUSE: it holds before, during and after a step. -/
structure State.Sound (s : State) : Prop where
  valid : s.params.Valid
  wf : s.mem.wf
  cells : s.HoldsCells
  bp : 0 ≤ s.bp ∧ s.bp ≤ s.params.stackTop
  sp : 0 ≤ s.sp ∧ s.sp ≤ s.params.stackTop
  pc : -1 ≤ s.pc ∧ s.pc ≤ s.params.N - 1

theorem State.inv_iff_sound {s : State} : s.Inv ↔
    s.Sound ∧ (s.run = .running → 0 ≤ s.pc ∧ s.cause = .none) ∧ (s.run = .halted → s.cause ≠ .none) := by
  constructor
  · rintro ⟨hv, hwf, hfits, hbp, hsp, hpc, hir, hrest⟩
    exact ⟨⟨hv, hwf, ⟨hfits, hir⟩, hbp, hsp, hpc⟩, hrest⟩
  · rintro ⟨⟨hv, hwf, ⟨hfits, hir⟩, hbp, hsp, hpc⟩, hrest⟩
    exact ⟨hv, hwf, hfits, hbp, hsp, hpc, hir, hrest⟩

theorem State.Sound.inv_of_halted {s : State} (h : s.Sound) (hrun : s.run = .halted) (hc : s.cause ≠ .none) : s.Inv :=
  State.inv_iff_sound.mpr ⟨h, by simp [hrun], fun _ => hc⟩

theorem State.Sound.raise_inv {s : State} (h : s.Sound) {t : Trap} (ht : t.cause ≠ .none) : (s.raise t).Inv :=
  State.Sound.inv_of_halted ⟨h.valid, h.wf, ⟨h.cells.mem, (h.cells.endRun h.valid t.cause).ir⟩, h.bp, h.sp, h.pc⟩ rfl ht

theorem State.Sound.raiseAtFetch_inv {s : State} (h : s.Sound) {t : Trap} (ht : t.cause ≠ .none) :
    (s.raiseAtFetch t).Inv :=
  State.Sound.inv_of_halted ⟨h.valid, h.wf, ⟨h.cells.mem, h.cells.ir⟩, h.bp, h.sp, h.pc⟩ rfl ht

theorem State.Sound.afterFetch {s : State} (h : s.Sound) (h2 : 2 ≤ s.pc) : s.afterFetch.Sound := by
  obtain ⟨hv, hwf, hcells, hbp, hsp, -, hN⟩ := h
  refine ⟨hv, hwf, ⟨hcells.mem, ?_⟩, hbp, hsp, ?_⟩
  · exact ⟨isCell_read hcells.mem _, isCell_read hcells.mem _, isCell_read hcells.mem _⟩
  · simp only [State.afterFetch, State.setPc_pc, State.setPc_params, State.setIr_params]
    omega

theorem State.Sound.askedRead {s : State} (h : s.Sound) (h1 : 1 ≤ s.sp) : (askedRead s).Sound := by
  obtain ⟨hv, hwf, hcells, hbp, ⟨-, hsp⟩, hpc⟩ := h
  exact ⟨hv, hwf, ⟨hcells.mem, hcells.ir⟩, hbp, ⟨Int.sub_nonneg_of_le h1, (Int.sub_le_self _ Int.one_nonneg).trans hsp⟩, hpc⟩

/-! ## The execute phase -/

theorem Memory.wf_foldl_write {ws : List (Int × Int)} {m : Memory} (h : m.wf) :
    (ws.foldl (fun m w => m.write w.1.toNat w.2) m).wf := by
  induction ws generalizing m with
  | nil => exact h
  | cons w ws ih => exact ih (Memory.wf_write h _ _)

/-- The execute phase of an instruction made of cells stores cells: its literal, an address, what it read, or a result
reduced to the cell range. -/
theorem executePhase_holdsCells {i : Instr} {s u : State} (hs : s.Sound) (hi : (encode i).IsCells s.params.W)
    (h : executePhase i s = .ok u) : u.HoldsCells := by
  obtain ⟨hvalid, -, hc, ⟨hbp0, hbp1⟩, -, hpc0, hpc1⟩ := hs
  have hW := one_le_width hvalid
  have htop := stackTop_lt s.params
  have hbp : IsCell s.params.W s.bp := isCell_of_address hvalid (by omega) (by omega)
  have hpc : IsCell s.params.W s.pc := isCell_of_address hvalid hpc0 hpc1
  have wraps : ∀ f : Int → Int → Int, binary (fun a b => .ok (wrap s.params.W (f a b))) s = .ok u → u.HoldsCells :=
    fun f => hc.binary fun _ _ _ _ hr => Except.ok.inj hr ▸ isCell_wrap hW _
  have truths : ∀ f : Int → Int → Bool, binary (fun a b => .ok (truth (f a b))) s = .ok u → u.HoldsCells :=
    fun f => hc.binary fun _ _ _ _ hr => Except.ok.inj hr ▸ isCell_truth hvalid _
  cases i
  case add l | sub l | mul l => exact wraps _ h
  case eql l | neq l | lss l | leq l | gtr l | geq l => exact truths _ h
  case div l => exact hc.binary (fun _ _ _ ha hr => isCell_of_divCells ha hr) h
  case oprInvalid l m | sysInvalid l m | inc l m | jmp l m => exact Except.ok.inj h ▸ ⟨hc.mem, hc.ir⟩
  case sysHalt l => exact Except.ok.inj h ▸ hc.endRun hvalid _
  case sysRead l =>
    simp only [executePhase] at h
    split at h
    · cases h
    · cases hin : nextInput s with
      | fail => rw [hin] at h; cases h
      | int v =>
        rw [hin] at h
        have hasked : (askedRead s).HoldsCells := ⟨hc.mem, hc.ir⟩
        exact (hasked.dataWrite (isCell_nextInput (s := s) hin) h).2
  all_goals simp only [executePhase, bind_eq_ok] at h
  case lit l m =>
    obtain ⟨s', hw, h⟩ := h
    obtain ⟨-, h'⟩ := hc.dataWrite hi.2.2 hw
    exact Except.ok.inj h ▸ ⟨h'.mem, h'.ir⟩
  case rtn l =>
    obtain ⟨_, -, _, -, h⟩ := h
    exact Except.ok.inj h ▸ ⟨hc.mem, hc.ir⟩
  case lod l m | sto l m =>
    obtain ⟨ea, -, v, hv, s', hw, h⟩ := h
    obtain ⟨-, h'⟩ := hc.dataWrite (hc.dataRead hv) hw
    exact Except.ok.inj h ▸ ⟨h'.mem, h'.ir⟩
  case cal l m =>
    obtain ⟨sl, hsl, s1, hw1, s2, hw2, s3, hw3, h⟩ := h
    obtain ⟨p1, h1⟩ := hc.dataWrite (hc.base hbp hsl) hw1
    obtain ⟨p2, h2⟩ := h1.dataWrite (p1 ▸ hbp) hw2
    obtain ⟨-, h3⟩ := h2.dataWrite (p2 ▸ p1 ▸ hpc) hw3
    exact Except.ok.inj h ▸ ⟨h3.mem, h3.ir⟩
  case jpc l m =>
    obtain ⟨v, -, h⟩ := h
    obtain rfl := Except.ok.inj h
    split <;> exact ⟨hc.mem, hc.ir⟩
  case sysPrint l =>
    obtain ⟨v, -, h⟩ := h
    exact Except.ok.inj h ▸ ⟨hc.mem, hc.ir⟩

/-- The check phase is what keeps the registers in range (R176). -/
theorem executePhase_sound {i : Instr} {s u : State} (hs : s.Sound) (hi : (encode i).IsCells s.params.W)
    (h : executePhase i s = .ok u) (hcheck : checkRegisters u = none) : u.Sound := by
  have hframe := executePhase_frame h
  obtain ⟨ws, -, hmem⟩ := hframe.mem
  obtain ⟨⟨hpc0, hpc1⟩, hbp, hsp⟩ := checkRegisters_eq_none.mp hcheck
  exact ⟨hframe.params ▸ hs.valid, hmem ▸ Memory.wf_foldl_write hs.wf, executePhase_holdsCells hs hi h, hbp, hsp,
    by omega, hpc1⟩

/-! ## Instructions and steps -/

theorem executePhase_error_cause {i : Instr} {s : State} {t : Trap} (h : executePhase i s = .error t) :
    t.cause ≠ .none := by
  rcases executePhase_eq_error h with ⟨k, a, rfl, -⟩ | rfl | rfl | ⟨l, m, -, rfl, -⟩ | ⟨rfl, -⟩ <;> exact nofun

theorem exec_inv {i : Instr} {s t : State} (hs : s.Sound) (hrun : s.run = .running) (hcause : s.cause = .none)
    (hi : (encode i).IsCells s.params.W) (h : exec i s = .next t) : t.Inv := by
  rcases exec_cases h with ⟨tr, ht, htr⟩ | ⟨⟨-, h1, -⟩, ht⟩ | ⟨u, hu, hcheck, ht⟩ <;> obtain rfl := Host.Outcome.next.inj ht
  · refine hs.raise_inv ?_
    rcases htr with htr | ⟨u, -, htr⟩
    · exact executePhase_error_cause htr
    · simp [checkRegisters_cause htr]
  · exact (hs.askedRead h1).raise_inv nofun
  · obtain ⟨hv, hwf, hcells, hbp, hsp, hpc⟩ := executePhase_sound hs hi hu hcheck
    refine State.inv_iff_sound.mpr ⟨⟨hv, hwf, ⟨hcells.mem, hcells.ir⟩, hbp, hsp, hpc⟩, ?_⟩
    obtain ⟨⟨hpc0, -⟩, -⟩ := checkRegisters_eq_none.mp hcheck
    rcases (executePhase_frame hu).run with ⟨hur, huc, -⟩ | ⟨hur, huc, -⟩
    · simp [hur, huc, hrun, hcause, hpc0]
    · simp [hur, huc]

/-- Settles O22: a fault is raised in a sound state, and a completed instruction leaves one, by the check phase. -/
theorem stepKeepsTheInvariant : Obligations.StepKeepsTheInvariant := by
  intro s t hinv h
  obtain ⟨hs, hrunning, -⟩ := State.inv_iff_sound.mp hinv
  obtain ⟨hrun, ⟨a, -, rfl⟩ | ⟨h2, -, ⟨-, rfl⟩ | ⟨i, hd, he⟩⟩⟩ := step_cases h
  · exact hs.raiseAtFetch_inv nofun
  · exact (hs.afterFetch h2).raise_inv nofun
  · refine exec_inv (hs.afterFetch h2) hrun (hrunning hrun).2 ?_ he
    exact encode_of_decode hd ▸ (hs.afterFetch h2).cells.ir

end Machine
end Sys2Proof
end

section
/-! PROOFS. Nothing a step does depends on IR, FINFO, the ports' past or the free values drawn before (spec/10_state.md R25,
R30): two machines that differ in these alone stay so, operation by operation, and emit the same events. -/

namespace Sys2Proof
namespace Machine

/-! ## Machines that agree -/

section
variable {s t : State}

theorem SameMachine.params (h : SameMachine s t) : t.params = s.params := h.1
theorem SameMachine.mem (h : SameMachine s t) : t.mem = s.mem := h.2.1
theorem SameMachine.pc (h : SameMachine s t) : t.pc = s.pc := h.2.2.1
theorem SameMachine.bp (h : SameMachine s t) : t.bp = s.bp := h.2.2.2.1
theorem SameMachine.sp (h : SameMachine s t) : t.sp = s.sp := h.2.2.2.2.1
theorem SameMachine.run (h : SameMachine s t) : t.run = s.run := h.2.2.2.2.2.1
theorem SameMachine.inpos (h : SameMachine s t) : t.inpos = s.inpos := h.2.2.2.2.2.2.2

/-! What reads the state reads the same of both. -/

theorem SameMachine.dataRead (h : SameMachine s t) (a : Int) : dataRead a t = dataRead a s := by
  simp only [Machine.dataRead, memRead, h.params, h.mem]

theorem SameMachine.walk (h : SameMachine s t) (k : Nat) (a : Int) : walk t k a = walk s k a := by
  induction k generalizing a with
  | zero => rfl
  | succ k ih => simp only [Machine.walk, h.dataRead, ih]

theorem SameMachine.base (h : SameMachine s t) (b l : Int) : base b l t = base b l s := by
  simp only [Machine.base, h.walk]

theorem SameMachine.effectiveAddress (h : SameMachine s t) (l m : Int) :
    effectiveAddress l m t = effectiveAddress l m s := by
  simp only [Machine.effectiveAddress, h.base, h.bp]

theorem SameMachine.target (h : SameMachine s t) (m : Int) : target m t = target m s := by
  simp only [Machine.target, h.params]

theorem SameMachine.nextInput (h : SameMachine s t) : nextInput t = nextInput s := by
  simp only [Machine.nextInput, h.params, h.inpos]

theorem SameMachine.checkRegisters (h : SameMachine s t) : checkRegisters t = checkRegisters s := by
  simp only [Machine.checkRegisters, h.params, h.pc, h.bp, h.sp]

theorem SameMachine.fetched (h : SameMachine s t) : t.fetched = s.fetched := by
  simp only [State.fetched, h.mem, h.pc]

theorem SameMachine.traceRecord (h : SameMachine s t) (name : TraceName) (ir : Triplet) :
    traceRecord name ir t = traceRecord name ir s := by
  have hentry : stackEntry t = stackEntry s := by
    funext a
    simp only [stackEntry, h.params, h.mem, h.bp, h.sp]
  simp only [Machine.traceRecord, stackList, hentry, h.params, h.pc, h.bp, h.sp]

end

/-! ## Machines that agree and have emitted the same events -/

/-- `u` and `v` agree, and have appended the same events to the ports `p` and `q`. -/
structure Twins (p q : List Event) (u v : State) : Prop where
  same : SameMachine u v
  ports : ∃ events, u.ports = p ++ events ∧ v.ports = q ++ events

theorem SameMachine.twins {s t : State} (h : SameMachine s t) : Twins s.ports t.ports s t :=
  ⟨h, [], by simp, by simp⟩

section
variable {p q : List Event} {u v : State}

theorem Twins.setMem (h : Twins p q u v) (m : Memory) : Twins p q (u.setMem m) (v.setMem m) := by
  obtain ⟨⟨hparams, -, hrest⟩, hports⟩ := h
  exact ⟨⟨hparams, rfl, hrest⟩, hports⟩

theorem Twins.setPc (h : Twins p q u v) (a : Int) : Twins p q (u.setPc a) (v.setPc a) := by
  obtain ⟨⟨hparams, hmem, -, hrest⟩, hports⟩ := h
  exact ⟨⟨hparams, hmem, rfl, hrest⟩, hports⟩

theorem Twins.setBp (h : Twins p q u v) (a : Int) : Twins p q (u.setBp a) (v.setBp a) := by
  obtain ⟨⟨hparams, hmem, hpc, -, hrest⟩, hports⟩ := h
  exact ⟨⟨hparams, hmem, hpc, rfl, hrest⟩, hports⟩

theorem Twins.setSp (h : Twins p q u v) (a : Int) : Twins p q (u.setSp a) (v.setSp a) := by
  obtain ⟨⟨hparams, hmem, hpc, hbp, -, hrest⟩, hports⟩ := h
  exact ⟨⟨hparams, hmem, hpc, hbp, rfl, hrest⟩, hports⟩

theorem Twins.setInpos (h : Twins p q u v) (k : Nat) : Twins p q (u.setInpos k) (v.setInpos k) := by
  obtain ⟨⟨hparams, hmem, hpc, hbp, hsp, hrun, hcause, -⟩, hports⟩ := h
  exact ⟨⟨hparams, hmem, hpc, hbp, hsp, hrun, hcause, rfl⟩, hports⟩

theorem Twins.setIr (h : Twins p q u v) (x y : Triplet) : Twins p q (u.setIr x) (v.setIr y) := ⟨h.same, h.ports⟩

theorem Twins.setFinfo (h : Twins p q u v) (i : FaultInfo) : Twins p q (u.setFinfo i) (v.setFinfo i) := ⟨h.same, h.ports⟩

theorem Twins.emit (h : Twins p q u v) (e : Event) : Twins p q (u.emit e) (v.emit e) := by
  obtain ⟨hsame, events, hu, hv⟩ := h
  exact ⟨hsame, events ++ [e], by simp [hu], by simp [hv]⟩

theorem Twins.endRun (h : Twins p q u v) (c : Cause) : Twins p q (u.endRun c) (v.endRun c) := by
  obtain ⟨⟨hparams, hmem, hpc, hbp, hsp, -, -, hinpos⟩, hports⟩ := h
  exact ⟨⟨hparams, hmem, hpc, hbp, hsp, rfl, rfl, hinpos⟩, hports⟩

theorem Twins.raise (h : Twins p q u v) (t : Trap) : Twins p q (u.raise t) (v.raise t) :=
  ((h.endRun t.cause).setFinfo t.info).emit _

theorem Twins.askedRead (h : Twins p q u v) : Twins p q (askedRead u) (askedRead v) := by
  unfold Machine.askedRead
  rw [h.same.sp, h.same.inpos]
  exact ((h.setSp _).emit _).setInpos _

theorem Twins.afterFetch (h : Twins p q u v) : Twins p q u.afterFetch v.afterFetch := by
  unfold State.afterFetch
  rw [h.same.pc]
  exact (h.setIr _ _).setPc _

end

/-! ## Phases that agree -/

/-- Two phases fail alike, or leave machines that agree and have emitted the same events. -/
inductive TwinResults (p q : List Event) : Except Trap State → Except Trap State → Prop where
  | error (t : Trap) : TwinResults p q (.error t) (.error t)
  | ok {u v : State} (h : Twins p q u v) : TwinResults p q (.ok u) (.ok v)

section
variable {p q : List Event}

/-- The same value is read, and the phases go on alike. -/
theorem TwinResults.read {α : Type} (x : Except Trap α) {f g : α → Except Trap State}
    (h : ∀ a, TwinResults p q (f a) (g a)) : TwinResults p q (x >>= f) (x >>= g) := by
  cases x with
  | error t => exact .error t
  | ok a => exact h a

theorem TwinResults.bind {x y : Except Trap State} {f g : State → Except Trap State} (hxy : TwinResults p q x y)
    (h : ∀ u v, Twins p q u v → TwinResults p q (f u) (g v)) : TwinResults p q (x >>= f) (y >>= g) := by
  cases hxy with
  | error t => exact .error t
  | ok huv => exact h _ _ huv

theorem Twins.dataWrite {u v : State} (h : Twins p q u v) (a x : Int) :
    TwinResults p q (dataWrite a x u) (dataWrite a x v) := by
  by_cases hin : 0 ≤ a ∧ a ≤ u.params.stackTop
  · rw [dataWrite_inside hin.1 hin.2, dataWrite_inside hin.1 (h.same.params ▸ hin.2), h.same.mem]
    exact .ok (h.setMem _)
  · rw [dataWrite_outside (by omega), dataWrite_outside (by rw [h.same.params]; omega)]
    exact .error _

theorem Twins.binary {s t : State} (h : Twins p q s t) (f : Int → Int → Except Trap Int) :
    TwinResults p q (binary f s) (binary f t) := by
  simp only [Machine.binary, h.same.dataRead, h.same.sp]
  exact .read _ fun b => .read _ fun a => .read _ fun r => .bind (h.dataWrite _ _) fun _ _ huv => .ok (huv.setSp _)

theorem Twins.executePhase {s t : State} (h : Twins p q s t) (i : Instr) :
    TwinResults p q (executePhase i s) (executePhase i t) := by
  cases i <;> simp only [Machine.executePhase, h.same.dataRead, h.same.base, h.same.effectiveAddress, h.same.target,
    h.same.nextInput, h.same.params, h.same.pc, h.same.bp, h.same.sp]
  case lit l m => exact .bind (h.dataWrite _ _) fun _ _ huv => .ok (huv.setSp _)
  case rtn l => exact .read _ fun bp => .read _ fun pc => .ok (((h.setSp _).setBp bp).setPc pc)
  case oprInvalid l m | sysInvalid l m => exact .ok (h.emit _)
  case lod l m | sto l m =>
    exact .read _ fun ea => .read _ fun x => .bind (h.dataWrite _ _) fun _ _ huv => .ok (huv.setSp _)
  case cal l m =>
    exact .read _ fun sl => .bind (h.dataWrite _ _) fun _ _ h1 => .bind (h1.dataWrite _ _) fun _ _ h2 =>
      .bind (h2.dataWrite _ _) fun _ _ h3 => .ok ((h3.setBp _).setPc _)
  case inc l m => exact .ok (h.setSp _)
  case jmp l m => exact .ok (h.setPc _)
  case jpc l m =>
    refine .read _ fun x => .ok ?_
    split
    · exact (h.setPc _).setSp _
    · exact h.setSp _
  case sysPrint l => exact .read _ fun x => .ok ((h.emit _).setSp _)
  case sysRead l =>
    split
    · exact .error _
    · split
      · exact .error _
      · exact h.askedRead.dataWrite _ _
  case sysHalt l => exact .ok (h.endRun _)
  all_goals exact h.binary _

end

/-! ## What a step does, by how its fetch and decoding come out -/

theorem step_of_fetch_error {s : State} {t : Trap} (hrun : s.run = .running) (hf : fetch s = .error t) :
    step s = .next (s.raiseAtFetch t) := by
  simp only [step, hrun, hf]

section
variable {s : State} (hrun : s.run = .running) (h2 : 2 ≤ s.pc) (hN : s.pc ≤ s.params.N - 1)
include hrun h2 hN

theorem step_of_decode_error {op : Int} (hd : decode s.fetched = .error (.illegalOpcode op)) :
    step s = .next (s.afterFetch.raise (illegalOpcode op)) := by
  have hd' : decode s.afterFetch.ir = .error (.illegalOpcode op) := hd
  simp only [step, hrun, show fetch s = .ok s.afterFetch from fetch_inside h2 hN, hd']

theorem step_of_decode_ok {i : Instr} (hd : decode s.fetched = .ok i) : step s = exec i s.afterFetch := by
  have hd' : decode s.afterFetch.ir = .ok i := hd
  simp only [step, hrun, show fetch s = .ok s.afterFetch from fetch_inside h2 hN, hd']

end

/-! ## Instructions and steps that agree -/

/-- Both end in a next state, of machines that agree and have emitted the same events; a fault's information is the same. -/
def EndAlike (p q : List Event) (o o' : Host.Outcome State Fault Refusal) : Prop :=
  ∃ s' t', o = .next s' ∧ o' = .next t' ∧ Twins p q s' t' ∧ (s'.Faulted → t'.finfo = s'.finfo)

section
variable {p q : List Event} {s t : State}

theorem Twins.raise_alike (h : Twins p q s t) (tr : Trap) : EndAlike p q (.next (s.raise tr)) (.next (t.raise tr)) :=
  ⟨_, _, rfl, rfl, h.raise tr, fun _ => rfl⟩

theorem Twins.raiseAtFetch_alike (h : Twins p q s t) (tr : Trap) :
    EndAlike p q (.next (s.raiseAtFetch tr)) (.next (t.raiseAtFetch tr)) :=
  ⟨_, _, rfl, rfl, (h.raise tr).setIr _ _, fun _ => rfl⟩

theorem TwinResults.finish {x y : Except Trap State} (hxy : TwinResults p q x y) (h : Twins p q s t) (hir : t.ir = s.ir)
    (hend : ∀ u, x = .ok u → ¬ u.Faulted) (name : TraceName) : EndAlike p q (finish name s x) (finish name t y) := by
  cases hxy with
  | error tr => exact h.raise_alike tr
  | @ok u v huv =>
    cases hcheck : checkRegisters u with
    | some tr =>
      rw [finish_check hcheck, finish_check (huv.same.checkRegisters.trans hcheck)]
      exact h.raise_alike tr
    | none =>
      rw [finish_ok hcheck, finish_ok (huv.same.checkRegisters.trans hcheck), huv.same.traceRecord, hir]
      exact ⟨_, _, rfl, rfl, huv.emit _, fun hfault => absurd hfault (hend u rfl)⟩

/-- A completed execute phase leaves a running machine or a normal end. -/
theorem executePhase_not_faulted {i : Instr} {u : State} (hrun : s.run = .running) (h : executePhase i s = .ok u) :
    ¬ u.Faulted := by
  rcases (executePhase_frame h).run with ⟨hur, -, -⟩ | ⟨-, huc, -⟩
  · simp [hur, hrun]
  · simp [huc]

theorem Twins.exec_alike (h : Twins p q s t) (hir : t.ir = s.ir) (hrun : s.run = .running) (i : Instr) :
    EndAlike p q (exec i s) (exec i t) := by
  have hreads : ReadFails i t ↔ ReadFails i s := by simp only [ReadFails, h.same.sp, h.same.nextInput]
  by_cases hfails : ReadFails i s
  · rw [exec_failedRead hfails, exec_failedRead (hreads.mpr hfails)]
    exact h.askedRead.raise_alike _
  · rw [exec_eq_finish hfails, exec_eq_finish (mt hreads.mp hfails)]
    exact (h.executePhase i).finish h hir (fun u => executePhase_not_faulted hrun) _

theorem SameMachine.fetch_error (h : SameMachine s t) {tr : Trap} (hf : fetch s = .error tr) : fetch t = .error tr := by
  have hread (a : Int) : memRead .fetch a t = memRead .fetch a s := by simp only [memRead, h.params, h.mem]
  simpa [fetch, bind_eq_error, hread, h.pc] using hf

theorem SameMachine.step_alike (h : SameMachine s t) (hrun : s.run = .running) :
    EndAlike s.ports t.ports (step s) (step t) := by
  have hrun' : t.run = .running := h.run.trans hrun
  rcases fetch_cases s with ⟨a, hf⟩ | ⟨-, h2, hN⟩
  · rw [step_of_fetch_error hrun hf, step_of_fetch_error hrun' (h.fetch_error hf)]
    exact h.twins.raiseAtFetch_alike _
  · have h2' : 2 ≤ t.pc := h.pc ▸ h2
    have hN' : t.pc ≤ t.params.N - 1 := h.pc ▸ h.params ▸ hN
    have hir : t.afterFetch.ir = s.afterFetch.ir := h.fetched
    cases hd : decode s.fetched with
    | error e =>
      obtain ⟨op⟩ := e
      rw [step_of_decode_error hrun h2 hN hd, step_of_decode_error hrun' h2' hN' (h.fetched ▸ hd)]
      exact h.twins.afterFetch.raise_alike _
    | ok i =>
      rw [step_of_decode_ok hrun h2 hN hd, step_of_decode_ok hrun' h2' hN' (h.fetched ▸ hd)]
      exact h.twins.afterFetch.exec_alike hir hrun i

end

/-- Settles O25: the two steps end alike, by congruence through fetch, execute phase, check and trace. -/
theorem portsAndIrDoNotInfluenceExecution : Obligations.PortsAndIrDoNotInfluenceExecution := by
  intro s t s' h hs
  obtain ⟨hrun, -⟩ := step_cases hs
  obtain ⟨s₁, t', hs₁, ht, ⟨hsame, events, hsports, htports⟩, hfault⟩ := h.step_alike hrun
  obtain rfl := Host.Outcome.next.inj (hs.symm.trans hs₁)
  exact ⟨t', events, ht, hsame, hsports, htports, hfault⟩

end Machine
end Sys2Proof
end

section
/-! PROOFS. Memory, reset and runs (spec/10_state.md R28, R32; spec/20_memory.md R47, R52): the canonical form of memory, the
reset state of a program, the code region along a run, and which instructions change a register or a cell (R21, R42). -/

namespace Sys2Proof
namespace Machine

/-! ## The canonical form of memory -/

/-- Of two memories that read alike, neither lists a cell below the other's lowest. -/
theorem Memory.lowest_le {b c : Nat} {w x : Int} {m m' : Memory} (h : Memory.wf ((b, w) :: m))
    (h' : Memory.wf ((c, x) :: m')) (hread : ∀ a, Memory.read ((b, w) :: m) a = Memory.read ((c, x) :: m') a) : c ≤ b := by
  obtain ⟨-, hw, -⟩ := Memory.wf_cons.mp h
  obtain ⟨hlt', -, -⟩ := Memory.wf_cons.mp h'
  by_contra hbc
  have hzero : Memory.read ((c, x) :: m') b = 0 := Memory.read_of_lt fun y hy => by
    rcases List.mem_cons.mp hy with rfl | hy
    · simp only; omega
    · have := hlt' y hy; omega
  have hb := hread b
  rw [hzero, Memory.read_cons, if_pos rfl] at hb
  exact hw hb

theorem Memory.eq_nil_of_read_zero {m : Memory} (h : m.wf) (hread : ∀ a, m.read a = 0) : m = [] := by
  cases m with
  | nil => rfl
  | cons y m =>
    obtain ⟨b, w⟩ := y
    obtain ⟨-, hw, -⟩ := Memory.wf_cons.mp h
    have hb := hread b
    rw [Memory.read_cons, if_pos rfl] at hb
    exact absurd hb hw

theorem Memory.eq_of_read {m m' : Memory} (h : m.wf) (h' : m'.wf) (hread : ∀ a, m.read a = m'.read a) : m = m' := by
  induction m generalizing m' with
  | nil => exact (Memory.eq_nil_of_read_zero h' fun a => (hread a).symm).symm
  | cons y m ih =>
    cases m' with
    | nil => exact Memory.eq_nil_of_read_zero h hread
    | cons y' m' =>
      obtain ⟨b, w⟩ := y
      obtain ⟨c, x⟩ := y'
      obtain rfl : b = c := le_antisymm (Memory.lowest_le h' h fun a => (hread a).symm) (Memory.lowest_le h h' hread)
      obtain ⟨hlt, -, hm⟩ := Memory.wf_cons.mp h
      obtain ⟨hlt', -, hm'⟩ := Memory.wf_cons.mp h'
      have hhead : w = x := by simpa [Memory.read_cons] using hread b
      have htail : ∀ a, Memory.read m a = Memory.read m' a := fun a => by
        by_cases hab : b = a
        · subst hab
          rw [Memory.read_of_lt hlt, Memory.read_of_lt hlt']
        · simpa [Memory.read_cons, hab] using hread a
      rw [hhead, ih hm hm' htail]

/-- Settles O28. -/
theorem canonicalMemoriesThatReadAlikeAreEqual : Obligations.CanonicalMemoriesThatReadAlikeAreEqual :=
  fun _ _ => Memory.eq_of_read

/-! ## The reset state -/

section
variable {N W : Nat} {prog : List Triplet} {input : List InputItem}

theorem loadedState_read_program (h : Loadable N W prog input) {i : Nat} {t : Triplet} (ht : prog[i]? = some t) :
    (loadedState N W prog input).mem.read (N - 1 - 3 * i) = t.op ∧
    (loadedState N W prog input).mem.read (N - 2 - 3 * i) = t.l ∧
    (loadedState N W prog input).mem.read (N - 3 - 3 * i) = t.m := by
  simpa using placeProgram_inside N prog 0 [] Memory.wf_nil h.program_fits i t ht

theorem loadedState_read_data (h : Loadable N W prog input) {a : Nat} (ha : a ≤ N - 1 - 3 * prog.length) :
    (loadedState N W prog input).mem.read a = 0 := by
  obtain ⟨⟨hN, hn, -⟩, -⟩ := h
  simp only at hN hn
  exact placeProgram_outside N prog 0 [] Memory.wf_nil (by omega) a (by omega)

end

/-- Settles O18. -/
theorem loadGivesTheResetState : Obligations.LoadGivesTheResetState := by
  intro N W prog input hN hn hW hprog
  have h : Loadable N W prog input := ⟨⟨hN, hn, hW⟩, hprog⟩
  exact ⟨loadedState N W prog input, load_of_loadable h, rfl, fun i t => loadedState_read_program h,
    fun a => loadedState_read_data h, rfl, rfl, rfl, rfl, rfl, rfl, rfl, rfl, rfl⟩

/-- Settles O20: it is the loaded state of the reference configuration with no program. -/
theorem resetIsLegitimate : Obligations.ResetIsLegitimate :=
  loadedStateIsLegitimate Config.capacity Config.width [] [] State.reset rfl

/-! ## The code region along a run -/

/-- An instruction writes in the data region only (R47), so a step leaves the code region and the parameters alone. -/
theorem step_keeps_code {s t : State} (hwf : s.mem.wf) (h : step s = .next t) :
    t.params = s.params ∧ ∀ a : Nat, s.params.codeLo ≤ a → t.mem.read a = s.mem.read a := by
  obtain ⟨-, ⟨a, rfl⟩ | rfl | ⟨i, -, ⟨tr, rfl, -⟩ | ⟨-, rfl⟩ | ⟨u, hu, -, rfl⟩⟩⟩ := step_outcome h
  case inr.inr.inr.inr =>
    obtain ⟨ws, hws, hmem⟩ := hu.mem
    refine ⟨hu.params, fun a ha => ?_⟩
    rw [codeLo_eq] at ha
    rw [State.emit_mem, hmem]
    exact Memory.read_foldl_write hwf hws a (by simp [State.afterFetch]; omega)
  all_goals exact ⟨rfl, fun _ _ => rfl⟩

/-- Legitimate, and with the parameters and the code region of `s`. -/
def KeepsCode (s u : State) : Prop :=
  u.Inv ∧ u.params = s.params ∧ ∀ a : Nat, s.params.codeLo ≤ a → u.mem.read a = s.mem.read a

theorem keepsCode_step {s u v : State} (hu : KeepsCode s u) (h : step u = .next v) : KeepsCode s v := by
  obtain ⟨hinv, hparams, hcode⟩ := hu
  obtain ⟨hparams', hcode'⟩ := step_keeps_code (State.inv_iff_sound.mp hinv).1.wf h
  exact ⟨stepKeepsTheInvariant u v hinv h, hparams'.trans hparams,
    fun a ha => (hcode' a (hparams ▸ ha)).trans (hcode a ha)⟩

/-- Settles O24: the code region stays what the loader left there. -/
theorem loadedProgramSurvivesEveryRun : Obligations.LoadedProgramSurvivesEveryRun := by
  intro N W prog input k s t hload hrun
  obtain ⟨hloadable, rfl⟩ := load_eq_next_iff.mp hload
  obtain ⟨hinv, -, hcode⟩ := run_keeps (fun _ _ => keepsCode_step) k _ t
    (⟨loadedState_inv hloadable, rfl, fun _ _ => rfl⟩ : KeepsCode (loadedState N W prog input) _) hrun
  refine ⟨hinv, fun i c hc => ?_⟩
  obtain ⟨hop, hl, hm⟩ := loadedState_read_program hloadable hc
  obtain ⟨hi, -⟩ := List.getElem?_eq_some_iff.mp hc
  obtain ⟨⟨hN, hn, -⟩, -⟩ := hloadable
  simp only at hN hn
  simp only [loadedState_params, Params.codeLo] at hcode
  exact ⟨(hcode _ (by omega)).trans hop, (hcode _ (by omega)).trans hl, (hcode _ (by omega)).trans hm⟩

/-! ## Which instructions change what -/

theorem writesMemory_eq_true {i : Instr} (h : writesMemory i = true) (l m : Int) :
    i ≠ .inc l m ∧ i ≠ .rtn l ∧ i ≠ .jmp l m ∧ i ≠ .jpc l m ∧ i ≠ .sysPrint l ∧ i ≠ .sysHalt l ∧
      i ≠ .oprInvalid l m ∧ i ≠ .sysInvalid l m := by
  cases i <;> simp_all [writesMemory]

/-- Settles O26: a fault other than a failed read changes nothing but PC, and a completed instruction has its frame. -/
theorem registersChangeOnlyWhereTheTableSays : Obligations.RegistersChangeOnlyWhereTheTableSays := by
  intro s t _ _ h
  obtain ⟨-, ⟨a, rfl⟩ | rfl | ⟨i, hd, ⟨tr, rfl, -⟩ | ⟨⟨⟨l, rfl⟩, -⟩, rfl⟩ | ⟨u, hu, -, rfl⟩⟩⟩ := step_outcome h
  · simp [addressFault]
  · simp [State.afterFetch]
  · simp [State.afterFetch]
  · simp [State.afterFetch, askedRead, hd]
  · refine ⟨fun h => ?bp, fun h => .inr ?pc, fun h => ⟨i, hd, ?sp⟩, fun ⟨a, h⟩ => ⟨i, hd, ?mem⟩⟩
    case bp => simpa [hd] using hu.bp.resolve_left h
    case pc => simpa [hd] using hu.pc.resolve_left h
    case sp => exact hu.sp.resolve_left h
    case mem =>
      refine writesMemory_eq_true ((Bool.eq_false_or_eq_true _).resolve_right fun hw => h ?_)
      rw [State.emit_mem, hu.nomem hw]
      rfl

end Machine
end Sys2Proof
end

section
/-! PROOFS. What an instruction's meaning comes to, by how its execute phase and the register check come out (spec/60_exceptions.md
R170, R178), and CAL by it (spec/43_control.md R120). -/

namespace Sys2Proof
namespace Machine

/-! ## The end of an instruction, in the words of the statements -/

theorem halts_raise (s : State) (t : Trap) : Halts s (s.raise t) t.cause t.info :=
  ⟨rfl, rfl, rfl, rfl, rfl, rfl, rfl, rfl, rfl, rfl⟩

/-- A commit appends the trace record to what the execute phase emitted. -/
theorem emits_commit {s u : State} {name : TraceName} {events : List Event} (h : u.ports = s.ports ++ events) :
    Emits s (u.emit (.trace (.record (traceRecord name s.ir u)))) name events := by
  unfold Emits
  rw [State.emit_ports, h]
  rfl

section
variable {i : Instr} {s u : State} {t : Trap}

theorem traps_of_executePhase_error (hi : ¬ ReadFails i s) (h : executePhase i s = .error t) :
    Traps i s t.cause t.info :=
  ⟨_, by rw [exec_eq_finish hi, h, finish_error], halts_raise s t⟩

theorem traps_of_checkRegisters (hi : ¬ ReadFails i s) (h : executePhase i s = .ok u) (hcheck : checkRegisters u = some t) :
    Traps i s t.cause t.info :=
  ⟨_, by rw [exec_eq_finish hi, h, finish_check hcheck], halts_raise s t⟩

theorem exec_of_checkRegisters_none (hi : ¬ ReadFails i s) (h : executePhase i s = .ok u) (hcheck : checkRegisters u = none) :
    exec i s = .next (u.emit (.trace (.record (traceRecord (traceName i) s.ir u)))) := by
  rw [exec_eq_finish hi, h, finish_ok hcheck]

end

/-- A write at an address that is a register's integer (R47). -/
theorem Memory.read_write_toNat {m : Memory} (h : m.wf) {a : Int} (ha : 0 ≤ a) (v : Int) (b : Nat) :
    (m.write a.toNat v).read b = if (b : Int) = a then v else m.read b := by
  have hiff : b = a.toNat ↔ (b : Int) = a := by omega
  rw [Memory.read_write h, if_congr hiff rfl rfl]

/-! ## CAL -/

/-- The state CAL leaves when its three writes are in the data region: static link, dynamic link and return address. -/
def calledState (sl m : Int) (s : State) : State :=
  ((s.setMem (((s.mem.write (s.sp - 1).toNat sl).write (s.sp - 2).toNat s.bp).write (s.sp - 3).toNat s.pc)).setBp
    (s.sp - 1)).setPc (target m s)

section
variable {s : State} {l m sl : Int}

@[simp] theorem calledState_params : (calledState sl m s).params = s.params := rfl
@[simp] theorem calledState_pc : (calledState sl m s).pc = target m s := rfl
@[simp] theorem calledState_bp : (calledState sl m s).bp = s.sp - 1 := rfl
@[simp] theorem calledState_sp : (calledState sl m s).sp = s.sp := rfl

theorem executePhase_cal_ok (hsp : 3 ≤ s.sp) (htop : s.sp ≤ s.params.stackTop) (hbase : base s.bp l s = .ok sl) :
    executePhase (.cal l m) s = .ok (calledState sl m s) := by
  simp only [executePhase, hbase, ok_bind]
  rw [dataWrite_inside (by omega) (by omega), ok_bind, dataWrite_inside (by omega) (by simp only [State.setMem_params]; omega),
    ok_bind, dataWrite_inside (by omega) (by simp only [State.setMem_params]; omega), ok_bind]
  rfl

/-- The record's third, second or first cell is the one below address 0. -/
theorem executePhase_cal_low (hsp0 : 0 ≤ s.sp) (hsp : s.sp ≤ 2) (htop : s.sp ≤ s.params.stackTop)
    (hbase : base s.bp l s = .ok sl) : executePhase (.cal l m) s = .error (addressFault .dataWrite (-1)) := by
  simp only [executePhase, hbase, ok_bind]
  obtain h | h | h : s.sp = 0 ∨ s.sp = 1 ∨ s.sp = 2 := by omega
  · rw [dataWrite_outside (by omega), error_bind, h]
    rfl
  · rw [dataWrite_inside (by omega) (by omega), ok_bind, dataWrite_outside (by omega), error_bind, h]
    rfl
  · rw [dataWrite_inside (by omega) (by omega), ok_bind,
      dataWrite_inside (by omega) (by simp only [State.setMem_params]; omega), ok_bind,
      dataWrite_outside (by omega), error_bind, h]
    rfl

theorem calledState_read (hwf : s.mem.wf) (hsp : 3 ≤ s.sp) (b : Nat) :
    (calledState sl m s).mem.read b = if (b : Int) = s.sp - 1 then sl else if (b : Int) = s.sp - 2 then s.bp
      else if (b : Int) = s.sp - 3 then s.pc else s.mem.read b := by
  have hwf1 := Memory.wf_write hwf (s.sp - 1).toNat sl
  have hwf2 := Memory.wf_write hwf1 (s.sp - 2).toNat s.bp
  simp only [calledState, State.setPc_mem, State.setBp_mem, State.setMem_mem]
  rw [Memory.read_write_toNat hwf2 (by omega), Memory.read_write_toNat hwf1 (by omega),
    Memory.read_write_toNat hwf (by omega)]
  grind

end

/-- Settles O40: the execute phase completes, or fails in `base` or at address -1; the new PC alone can fail the check. -/
theorem calBuildsTheRecordAndJumps : Obligations.CalBuildsTheRecordAndJumps := by
  intro s l m ⟨_, hwf, _, _, ⟨hsp0, hsp1⟩, _, _, _, _⟩
  have hread : ¬ ReadFails (.cal l m) s := fun ⟨⟨_, h⟩, _⟩ => nomatch h
  refine ⟨decode_cal l m, fun sl hbase => ⟨fun hsp hm0 hm1 => ?completes, fun hsp => ?low, fun hsp hm => ?target⟩,
    fun tr hbase => ?base⟩
  case completes =>
    have hcheck : checkRegisters (calledState sl m s) = none := by
      simp only [checkRegisters_eq_none, calledState_pc, calledState_bp, calledState_sp, calledState_params, target]
      omega
    exact ⟨_, exec_of_checkRegisters_none hread (executePhase_cal_ok hsp hsp1 hbase) hcheck,
      calledState_read (m := m) hwf hsp, rfl, rfl, rfl, rfl, ⟨rfl, rfl, rfl, rfl, rfl, rfl⟩, emits_commit (List.append_nil _).symm⟩
  case low => exact traps_of_executePhase_error hread (executePhase_cal_low hsp0 hsp hsp1 hbase)
  case target =>
    have hcheck := checkRegisters_pc (s := calledState sl m s) (by
      simp only [calledState_pc, calledState_params, target]
      omega)
    exact traps_of_checkRegisters hread (executePhase_cal_ok hsp hsp1 hbase) hcheck
  case base => exact traps_of_executePhase_error hread (by simp only [executePhase, hbase, error_bind])

end Machine
end Sys2Proof
end

section
/-! PROOFS. The code region under one step of a legitimate state (spec/20_memory.md R47, R52). -/

namespace Sys2Proof
namespace Machine

/-- Settles O23: of the invariant it needs only that memory is in canonical form. -/
theorem stepNeverChangesTheCode : Obligations.StepNeverChangesTheCode := by
  intro s t hinv h
  obtain ⟨hsound, -⟩ := State.inv_iff_sound.mp hinv
  exact step_keeps_code hsound.wf h

end Machine
end Sys2Proof
end

section
/-! PROOFS. Decoding and encoding are inverse to each other (spec/30_encoding.md R60 to R69), and an opcode cell outside 1..9
halts the machine (R68). -/

namespace Sys2Proof

/-! ## Well-formed instructions -/

/-- The fallback of opcode 2 is what the reserved modifiers decode to, and nothing else (R69). -/
theorem decodeOpr_eq_oprInvalid_iff {l m : Int} : decodeOpr l m = .oprInvalid l m ↔ IsReservedOpr m := by
  refine ⟨fun h => ?_, decodeOpr_reserved⟩
  by_contra hm
  obtain ⟨h0, h1⟩ := not_or.mp hm
  interval_cases m <;> cases h

/-- The fallback of opcode 9 is what the reserved modifiers decode to, and nothing else (R69). -/
theorem decodeSys_eq_sysInvalid_iff {l m : Int} : decodeSys l m = .sysInvalid l m ↔ IsReservedSys m := by
  refine ⟨fun h => ?_, decodeSys_reserved⟩
  by_contra hm
  obtain ⟨h0, h1⟩ := not_or.mp hm
  interval_cases m <;> cases h

/-- The well-formed instructions are those that are three cells and that the decoder reads from these cells (R60, R69). -/
theorem wellFormed_iff {W : Nat} {i : Instr} :
    WellFormed W i = true ↔ (encode i).IsCells W ∧ decode (encode i) = .ok i := by
  cases i
  case oprInvalid l m =>
    rw [encode, decode_opr, Except.ok.injEq, decodeOpr_eq_oprInvalid_iff]
    simp only [WellFormed, decide_eq_true_eq, and_assoc]
  case sysInvalid l m =>
    rw [encode, decode_sys, Except.ok.injEq, decodeSys_eq_sysInvalid_iff]
    simp only [WellFormed, decide_eq_true_eq, and_assoc]
  all_goals exact ⟨fun h => ⟨of_decide_eq_true h, rfl⟩, fun h => decide_eq_true h.1⟩

/-- Settles O1: that the decoder reads it back is half of being well formed. -/
theorem decodeOfEncodeIsTheInstruction : Obligations.DecodeOfEncodeIsTheInstruction :=
  fun _ _ h => (wellFormed_iff.mp h).2

/-- Settles O2: the decoder loses nothing of the three cells, so `wellFormed_iff` speaks of them. -/
theorem encodeOfDecodeIsTheTriplet : Obligations.EncodeOfDecodeIsTheTriplet := by
  intro W t i ht hd
  have he : encode i = t := encode_of_decode hd
  exact ⟨he, wellFormed_iff.mpr (he ▸ ⟨ht, hd⟩)⟩

/-- Settles O5: each triplet by the law of its opcode. -/
theorem writtenTripletsDecode : Obligations.WrittenTripletsDecode :=
  ⟨decode_lit 0 5, decode_opr 0 0, decode_opr 0 4, decode_opr 7 11, decode_lod 1 3, decode_cal 0 21, decode_jpc 0 42,
    decode_sys 0 3, decode_sys 0 0, decode_illegal (.inr (by decide))⟩

namespace Machine

/-- Settles O9: the fault is raised in the state the fetch phase leaves, which differs from `s` in PC and IR alone. -/
theorem illegalOpcodeHalts : Obligations.IllegalOpcodeHalts := by
  intro s ⟨_, _, _, _, _, ⟨_, hN⟩, _⟩ hrun h2 hop
  exact ⟨_, step_of_decode_error hrun h2 hN (decode_illegal hop), halts_raise s.afterFetch (illegalOpcode s.fetched.op)⟩

end Machine
end Sys2Proof
end

section
/-! PROOFS. The packed word of spec/opcode_table.json (spec/30_encoding.md R67): packing three cells loses nothing, and the rows
of the table name what the decoder reads. -/

namespace Sys2Proof

/-! ## The pattern of a cell -/

theorem cellBits_lt (v : Int) : cellBits v < 2 ^ 32 := by
  unfold cellBits
  omega

theorem wrap_cellBits {v : Int} (h : IsCell 32 v) : wrap 32 (cellBits v) = v := by
  refine (wrap_eq_iff (by decide)).mpr ⟨h, ?_⟩
  unfold cellBits
  omega

/-- A pattern below the sign bit is the pattern of its own value. -/
theorem wrap_of_lt {n : Nat} (h : n < 2 ^ 31) : wrap 32 n = n :=
  (wrap_eq_iff (by decide)).mpr ⟨by unfold IsCell intMin intMax; omega, by omega⟩

/-- A pattern above a bound has a value above it, or a negative one. -/
theorem wrap_outside {b n : Nat} (hb : b < n) (h : n < 2 ^ 32) : wrap 32 n < 0 ∨ (b : Int) < wrap 32 n := by
  obtain h31 | h31 := Nat.lt_or_ge n (2 ^ 31)
  · rw [wrap_of_lt h31]
    omega
  · have hw : wrap 32 n = (n : Int) - 2 ^ 32 :=
      (wrap_eq_iff (by decide)).mpr ⟨by unfold IsCell intMin intMax; omega, by omega⟩
    omega

/-! ## Packing -/

theorem packWord_lt (t : Triplet) : packWord t < 2 ^ 96 := by
  have := cellBits_lt t.op
  have := cellBits_lt t.l
  have := cellBits_lt t.m
  unfold packWord
  omega

/-- Each field of the packed word is the pattern of its cell. -/
theorem unpackWord_packWord {t : Triplet} (h : t.IsCells 32) : unpackWord (packWord t) = t := by
  obtain ⟨hop, hl, hm⟩ := h
  have bop := cellBits_lt t.op
  have bl := cellBits_lt t.l
  have bm := cellBits_lt t.m
  have eop : packWord t / 2 ^ 64 % 2 ^ 32 = cellBits t.op := by unfold packWord; omega
  have el : packWord t / 2 ^ 32 % 2 ^ 32 = cellBits t.l := by unfold packWord; omega
  have em : packWord t % 2 ^ 32 = cellBits t.m := by unfold packWord; omega
  rw [unpackWord, eop, el, em, wrap_cellBits hop, wrap_cellBits hl, wrap_cellBits hm]

theorem decodeTableWord_of_lt {w : Nat} (h : w < 2 ^ 96) : decodeTableWord 96 w = (decode (unpackWord w)).toOption := by
  rw [decodeTableWord, tableTriplet, Nat.mod_eq_of_lt h]

/-- Settles O3: unpacking gives back the three cells, and these decode to the instruction. -/
theorem packedWordRoundTrip : Obligations.PackedWordRoundTrip := by
  intro i h
  obtain ⟨hcells, hd⟩ := wellFormed_iff.mp h
  refine ⟨packWord_lt _, ?_⟩
  rw [decodeTableWord_of_lt (packWord_lt _), unpackWord_packWord hcells, hd]
  rfl

/-! ## The rows of the table by opcode and modifier -/

/-- What a row's mask and word say of the opcode's and the modifier's pattern: the mask covers the whole opcode, and the whole
modifier or nothing of it (R67). -/
def TableRow.covers (r : TableRow) (op m : Nat) : Bool :=
  op == r.word / 2 ^ 64 && (r.mask % 2 ^ 32 == 0 || m == r.word % 2 ^ 32)

/-- The row of an opcode's and a modifier's pattern. -/
def rowOf (op m : Nat) : Option TableRow := (selectorRows ++ opcodeRows).find? (·.covers op m)

/-- The form of every row's mask and word, field by field. -/
theorem tableRow_form : ∀ r ∈ selectorRows ++ opcodeRows,
    r.mask / 2 ^ 64 = 2 ^ 32 - 1 ∧ r.mask / 2 ^ 32 % 2 ^ 32 = 0 ∧ r.word / 2 ^ 32 % 2 ^ 32 = 0 ∧
    (r.mask % 2 ^ 32 = 0 ∧ r.word % 2 ^ 32 = 0 ∨ r.mask % 2 ^ 32 = 2 ^ 32 - 1) := by decide

/-- Two words are equal when their three fields are. -/
theorem word_eq_iff {v w : Nat} :
    v = w ↔ v / 2 ^ 64 = w / 2 ^ 64 ∧ v / 2 ^ 32 % 2 ^ 32 = w / 2 ^ 32 % 2 ^ 32 ∧ v % 2 ^ 32 = w % 2 ^ 32 := by
  omega

theorem and_mask_eq_word_iff {r : TableRow} (hr : r ∈ selectorRows ++ opcodeRows) {w : Nat} (h : w < 2 ^ 96) :
    w &&& r.mask = r.word ↔ r.covers (w / 2 ^ 64) (w % 2 ^ 32) = true := by
  obtain ⟨hop, hl, hwl, hm⟩ := tableRow_form r hr
  have hw : w / 2 ^ 64 % 2 ^ 32 = w / 2 ^ 64 := Nat.mod_eq_of_lt (by omega)
  rw [word_eq_iff, Nat.and_div_two_pow, Nat.and_div_two_pow, Nat.and_mod_two_pow, Nat.and_mod_two_pow, hop, hl, hwl,
    Nat.and_two_pow_sub_one_eq_mod, hw, Nat.and_zero, TableRow.covers]
  obtain ⟨hm, hwm⟩ | hm := hm
  · rw [hm, hwm]
    simp
  · rw [hm, Nat.and_two_pow_sub_one_eq_mod, Nat.mod_mod]
    simp

theorem tableRow_eq_rowOf {w : Nat} (h : w < 2 ^ 96) : tableRow w = rowOf (w / 2 ^ 64) (w % 2 ^ 32) :=
  List.find?_congr fun r hr => by rw [Bool.eq_iff_iff, decide_eq_true_eq, and_mask_eq_word_iff hr h]

/-! ## The rows and the decoder -/

theorem rowOf_illegal {op : Nat} (h : op < 1 ∨ 9 < op) (m : Nat) : rowOf op m = none := by
  have hrange : ∀ r ∈ selectorRows ++ opcodeRows, 1 ≤ r.word / 2 ^ 64 ∧ r.word / 2 ^ 64 ≤ 9 := by decide
  refine List.find?_eq_none.mpr fun r hr hc => ?_
  have := hrange r hr
  rw [TableRow.covers, Bool.and_eq_true, beq_iff_eq] at hc
  omega

/-- No row with a selector covers an opcode with a modifier that none of its rows selects. -/
theorem selectorRows_find?_eq_none {op m : Nat} (h : ∀ r ∈ selectorRows, r.word / 2 ^ 64 = op → r.word % 2 ^ 32 ≠ m) :
    selectorRows.find? (·.covers op m) = none := by
  have hmask : ∀ r ∈ selectorRows, r.mask % 2 ^ 32 ≠ 0 := by decide
  refine List.find?_eq_none.mpr fun r hr hc => ?_
  rw [TableRow.covers, Bool.and_eq_true, Bool.or_eq_true, beq_iff_eq, beq_iff_eq, beq_iff_eq] at hc
  obtain ⟨hop, hm | hm⟩ := hc
  · exact hmask r hr hm
  · exact h r hr hop.symm hm.symm

theorem rowOf_opr_reserved {m : Nat} (h : 10 < m) : (rowOf 2 m).map TableRow.mnemonic = some "OPR.invalid" := by
  have hrange : ∀ r ∈ selectorRows, r.word / 2 ^ 64 = 2 → r.word % 2 ^ 32 ≤ 10 := by decide
  rw [rowOf, List.find?_append, selectorRows_find?_eq_none fun r hr hop => ((hrange r hr hop).trans_lt h).ne]
  rfl

theorem rowOf_sys_reserved {m : Nat} (h : 3 < m) : (rowOf 9 m).map TableRow.mnemonic = some "SYS.invalid" := by
  have hrange : ∀ r ∈ selectorRows, r.word / 2 ^ 64 = 9 → r.word % 2 ^ 32 ≤ 3 := by decide
  rw [rowOf, List.find?_append, selectorRows_find?_eq_none fun r hr hop => ((hrange r hr hop).trans_lt h).ne]
  rfl

theorem rowOf_opr {m : Nat} (h : m < 2 ^ 32) (l : Int) :
    (rowOf 2 m).map TableRow.mnemonic = some (decodeOpr l (wrap 32 m)).mnemonic := by
  obtain hm | hm := Nat.lt_or_ge 10 m
  · rw [rowOf_opr_reserved hm, decodeOpr_reserved (wrap_outside hm h)]
    rfl
  · rw [wrap_of_lt (by omega)]
    interval_cases m <;> rfl

theorem rowOf_sys {m : Nat} (h : m < 2 ^ 32) (l : Int) :
    (rowOf 9 m).map TableRow.mnemonic = some (decodeSys l (wrap 32 m)).mnemonic := by
  obtain hm | hm := Nat.lt_or_ge 3 m
  · rw [rowOf_sys_reserved hm, decodeSys_reserved ((wrap_outside hm h).imp_left (by omega))]
    rfl
  · rw [wrap_of_lt (by omega)]
    interval_cases m <;> rfl

/-- The level has no part in which row or which instruction it is. -/
theorem rowOf_mnemonic {op m : Nat} (hop : op < 2 ^ 32) (hm : m < 2 ^ 32) (l : Int) :
    (rowOf op m).map TableRow.mnemonic = (decode ⟨wrap 32 op, l, wrap 32 m⟩).toOption.map Instr.mnemonic := by
  by_cases h : op < 1 ∨ 9 < op
  · have hill : wrap 32 op < 1 ∨ 9 < wrap 32 op := by
      obtain h | h := h
      · rw [wrap_of_lt (by omega)]
        omega
      · have := wrap_outside h hop
        omega
    generalize wrap 32 op = v at hill ⊢
    rw [rowOf_illegal h, decode_illegal hill]
    rfl
  · obtain ⟨h0, h1⟩ := not_or.mp h
    rw [wrap_of_lt (by omega)]
    interval_cases op
    · rfl
    · rw [rowOf_opr hm l, Nat.cast_ofNat, decode_opr]
      rfl
    iterate 6 · rfl
    · rw [rowOf_sys hm l, Nat.cast_ofNat, decode_sys]
      rfl

/-- Settles O4: a row looks at the opcode and the modifier only, and on these the rows and the decoder agree. -/
theorem opcodeTableAgreesWithDecoder : Obligations.OpcodeTableAgreesWithDecoder := by
  intro w hw
  have hop : w / 2 ^ 64 % 2 ^ 32 = w / 2 ^ 64 := Nat.mod_eq_of_lt (by omega)
  rw [tableRow_eq_rowOf hw, decodeTableWord_of_lt hw, unpackWord, hop]
  exact rowOf_mnemonic (by omega) (Nat.mod_lt _ (by decide)) _

end Sys2Proof
end

section
/-! PROOFS. LIT and INC (spec/40_literal_and_frame.md R80, R81). -/

namespace Sys2Proof
namespace Machine

/-- A PC of -1 that the fetch phase left and the instruction kept is the first thing the check phase finds (R171, R176). -/
theorem checkRegisters_pc_neg_one {u : State} (h : u.pc = -1) : checkRegisters u = some (addressFault .regPC (-1)) := by
  rw [checkRegisters_pc (by omega), h]

/-! ## Pushing a cell -/

/-- The state with `v` pushed: stored below the top, and SP one lower (R24). -/
def pushedState (v : Int) (s : State) : State := (s.setMem (s.mem.write (s.sp - 1).toNat v)).setSp (s.sp - 1)

section
variable {s : State} {l m v : Int}

@[simp] theorem pushedState_params : (pushedState v s).params = s.params := rfl
@[simp] theorem pushedState_pc : (pushedState v s).pc = s.pc := rfl
@[simp] theorem pushedState_bp : (pushedState v s).bp = s.bp := rfl
@[simp] theorem pushedState_sp : (pushedState v s).sp = s.sp - 1 := rfl

theorem pushedState_oneCell (hwf : s.mem.wf) (hsp : 0 < s.sp) : OneCell s (pushedState v s) (s.sp - 1) v :=
  Memory.read_write_toNat hwf (by omega) v

/-! ## LIT -/

theorem executePhase_lit_ok (hsp : 0 < s.sp) (htop : s.sp ≤ s.params.stackTop) :
    executePhase (.lit l m) s = .ok (pushedState m s) := by
  rw [executePhase, dataWrite_inside (by omega) (by omega), ok_bind, pushedState]

theorem executePhase_lit_full (hsp : s.sp = 0) :
    executePhase (.lit l m) s = .error (addressFault .dataWrite (-1)) := by
  rw [executePhase, dataWrite_outside (by omega), error_bind, hsp, zero_sub]

end

/-- Settles O30: the store can fail only at SP = 0, and a completed push can fail the check only by its PC. -/
theorem litPushesItsLiteral : Obligations.LitPushesItsLiteral := by
  intro s l m ⟨_, hwf, _, ⟨hbp0, hbp1⟩, ⟨_, hsp1⟩, ⟨_, hpc1⟩, _, _, _⟩
  have hread : ¬ ReadFails (.lit l m) s := fun ⟨⟨_, h⟩, _⟩ => nomatch h
  refine ⟨decode_lit l m, fun hsp hpc => ?completes, fun hsp => ?full, fun hsp hpc => ?pc⟩
  case completes =>
    have hcheck : checkRegisters (pushedState m s) = none := by
      simp only [checkRegisters_eq_none, pushedState_pc, pushedState_bp, pushedState_sp, pushedState_params]
      omega
    exact ⟨_, exec_of_checkRegisters_none hread (executePhase_lit_ok hsp hsp1) hcheck, pushedState_oneCell hwf hsp,
      rfl, rfl, rfl, rfl, ⟨rfl, rfl, rfl, rfl, rfl, rfl⟩, emits_commit (List.append_nil _).symm⟩
  case full => exact traps_of_executePhase_error hread (executePhase_lit_full hsp)
  case pc => exact traps_of_checkRegisters hread (executePhase_lit_ok hsp hsp1) (checkRegisters_pc_neg_one hpc)

/-! ## INC -/

/-- Settles O31: the execute phase moves SP and cannot fail, so PC and the new SP in the check phase decide. -/
theorem incMovesSpAndWritesNothing : Obligations.IncMovesSpAndWritesNothing := by
  intro s l m ⟨_, _, _, hbp, _, ⟨_, hpc1⟩, _, _, _⟩
  have hread : ¬ ReadFails (.inc l m) s := fun ⟨⟨_, h⟩, _⟩ => nomatch h
  have hphase : executePhase (.inc l m) s = .ok (s.setSp (s.sp - m)) := rfl
  have hpc_in (hpc : 0 ≤ s.pc) : 0 ≤ s.pc ∧ s.pc ≤ s.params.N - 1 := by omega
  refine ⟨decode_inc l m, fun hpc hsp0 hsp1 => ?completes, fun hpc hsp => ?sp, fun hpc => ?pc⟩
  case completes =>
    have hcheck : checkRegisters (s.setSp (s.sp - m)) = none :=
      checkRegisters_eq_none.mpr ⟨hpc_in hpc, hbp, hsp0, hsp1⟩
    exact ⟨_, exec_of_checkRegisters_none hread hphase hcheck, fun _ => rfl, rfl, rfl, rfl, rfl,
      ⟨rfl, rfl, rfl, rfl, rfl, rfl⟩, emits_commit (List.append_nil _).symm⟩
  case sp => exact traps_of_checkRegisters hread hphase (checkRegisters_sp (hpc_in hpc) hbp hsp)
  case pc => exact traps_of_checkRegisters hread hphase (checkRegisters_pc_neg_one hpc)

end Machine
end Sys2Proof
end

section
/-! PROOFS. OPR on the two topmost cells (spec/41_opr_arithmetic.md R90 to R100, R103), and the reserved modifiers of OPR and SYS
(R101; spec/44_system.md R138). -/

namespace Sys2Proof
namespace Machine

/-! ## An instruction that is its execute phase, check, commit and trace -/

section
variable {i : Instr} {s u : State} {t : Trap} {name : TraceName}

theorem exec_of_finish_ok (h : exec i s = finish name s (.ok u)) (hcheck : checkRegisters u = none) :
    exec i s = .next (u.emit (.trace (.record (traceRecord name s.ir u)))) :=
  h.trans (finish_ok hcheck)

theorem traps_of_finish_error (h : exec i s = finish name s (.error t)) : Traps i s t.cause t.info :=
  ⟨_, h, halts_raise s t⟩

theorem traps_of_pc_neg_one (h : exec i s = finish name s (.ok u)) (hpc : u.pc = -1) :
    Traps i s .addressFault (.address .regPC (-1)) :=
  ⟨_, by rw [h, finish_check (checkRegisters_pc_neg_one hpc)], halts_raise s (addressFault .regPC (-1))⟩

end

/-! ## The common form of the binary operations (R90) -/

/-- The state with the two topmost cells replaced by `r`: stored over the second, and SP one higher (R90). -/
def combinedState (r : Int) (s : State) : State := (s.setMem (s.mem.write (s.sp + 1).toNat r)).setSp (s.sp + 1)

section
variable {i : Instr} {s : State} {name : TraceName} {f : Int → Int → Except Trap Int} {g : Int → Int → Int} {r : Int} {t : Trap}

@[simp] theorem combinedState_params : (combinedState r s).params = s.params := rfl
@[simp] theorem combinedState_pc : (combinedState r s).pc = s.pc := rfl
@[simp] theorem combinedState_bp : (combinedState r s).bp = s.bp := rfl
@[simp] theorem combinedState_sp : (combinedState r s).sp = s.sp + 1 := rfl

theorem combinedState_oneCell (hwf : s.mem.wf) (hsp : 0 ≤ s.sp) : OneCell s (combinedState r s) (s.sp + 1) r :=
  Memory.read_write_toNat hwf (by omega) r

theorem dataRead_top (h0 : 0 ≤ s.sp) (h1 : s.sp ≤ s.params.stackTop) : dataRead s.sp s = .ok s.top := dataRead_inside h0 h1

theorem dataRead_second (h0 : 0 ≤ s.sp) (h1 : s.sp < s.params.stackTop) : dataRead (s.sp + 1) s = .ok s.second :=
  dataRead_inside (by omega) h1

theorem binary_ok (h0 : 0 ≤ s.sp) (h1 : s.sp < s.params.stackTop) (hf : f s.second s.top = .ok r) :
    binary f s = .ok (combinedState r s) :=
  binary_inside h0 h1 hf

/-- With one cell on the stack the second read is outside the data region. -/
theorem binary_full (h0 : 0 ≤ s.sp) (h1 : s.sp = s.params.stackTop) :
    binary f s = .error (addressFault .dataRead (s.params.stackTop + 1)) := by
  rw [binary, dataRead_top h0 h1.le, ok_bind, dataRead_outside (by omega), error_bind, h1]

/-- A fault of the operation itself comes after both reads. -/
theorem binary_error (h0 : 0 ≤ s.sp) (h1 : s.sp < s.params.stackTop) (hf : f s.second s.top = .error t) :
    binary f s = .error t := by
  rw [binary, dataRead_top h0 h1.le, ok_bind, dataRead_second h0 h1, ok_bind, hf, error_bind]

theorem completesBinary_of_ok (hs : s.Fetched) (h : exec i s = finish name s (binary f s)) (hsp : s.sp < s.params.stackTop)
    (hpc : 0 ≤ s.pc) (hf : f s.second s.top = .ok r) : CompletesBinary i s name r := by
  obtain ⟨_, hwf, _, ⟨hbp0, hbp1⟩, ⟨hsp0, _⟩, ⟨_, hpc1⟩, _, _, _⟩ := hs
  have hcheck : checkRegisters (combinedState r s) = none := by
    simp only [checkRegisters_eq_none, combinedState_pc, combinedState_bp, combinedState_sp, combinedState_params]
    omega
  have hexec : exec i s = finish name s (.ok (combinedState r s)) := by rw [h, binary_ok hsp0 hsp hf]
  exact ⟨_, exec_of_finish_ok hexec hcheck, combinedState_oneCell hwf hsp0, rfl, rfl, rfl, rfl,
    ⟨rfl, rfl, rfl, rfl, rfl, rfl⟩, emits_commit (List.append_nil _).symm⟩

theorem traps_of_binary_full (hs : s.Fetched) (h : exec i s = finish name s (binary f s)) (hsp : s.sp = s.params.stackTop) :
    Traps i s .addressFault (.address .dataRead (s.params.stackTop + 1)) := by
  obtain ⟨_, _, _, _, ⟨hsp0, _⟩, _⟩ := hs
  exact traps_of_finish_error (h.trans (by rw [binary_full hsp0 hsp]))

theorem traps_of_binary_error (hs : s.Fetched) (h : exec i s = finish name s (binary f s)) (hsp : s.sp < s.params.stackTop)
    (hf : f s.second s.top = .error t) : Traps i s t.cause t.info := by
  obtain ⟨_, _, _, _, ⟨hsp0, _⟩, _⟩ := hs
  exact traps_of_finish_error (h.trans (by rw [binary_error hsp0 hsp hf]))

theorem traps_of_binary_pc (hs : s.Fetched) (h : exec i s = finish name s (binary f s)) (hsp : s.sp < s.params.stackTop)
    (hpc : s.pc = -1) (hf : f s.second s.top = .ok r) : Traps i s .addressFault (.address .regPC (-1)) := by
  obtain ⟨_, _, _, _, ⟨hsp0, _⟩, _⟩ := hs
  exact traps_of_pc_neg_one (u := combinedState r s) (h.trans (by rw [binary_ok hsp0 hsp hf])) hpc

/-- The two faults of an operation that has a result for every pair of cells. -/
theorem traps_of_total_binary (hs : s.Fetched) (h : exec i s = finish name s (binary (fun a b => .ok (g a b)) s)) :
    (s.sp = s.params.stackTop → Traps i s .addressFault (.address .dataRead (s.params.stackTop + 1))) ∧
    (s.sp < s.params.stackTop → s.pc = -1 → Traps i s .addressFault (.address .regPC (-1))) :=
  ⟨traps_of_binary_full hs h, fun hsp hpc => traps_of_binary_pc hs h hsp hpc rfl⟩

end

/-! ## ADD, SUB, MUL -/

/-- Settles O32: the common form with three operations that have a result for every pair of cells. -/
theorem addSubMulWrap : Obligations.AddSubMulWrap := by
  intro s l hs
  refine ⟨decode_opr l 1, decode_opr l 2, decode_opr l 3, fun hsp hpc => ⟨?_, ?_, ?_⟩, fun i hi => ?faults⟩
  · exact completesBinary_of_ok hs rfl hsp hpc rfl
  · exact completesBinary_of_ok hs rfl hsp hpc rfl
  · exact completesBinary_of_ok hs rfl hsp hpc rfl
  case faults =>
    simp only [List.mem_cons, List.not_mem_nil, or_false] at hi
    rcases hi with rfl | rfl | rfl <;> exact traps_of_total_binary hs rfl

/-! ## DIV -/

theorem divCells_zero (W : Nat) (a : Int) : divCells W a 0 = .error divideByZero := if_pos rfl

theorem divCells_overflow (W : Nat) : divCells W (intMin W) (-1) = .error divideOverflow := by
  rw [divCells, if_neg (by decide), if_pos ⟨rfl, rfl⟩]

theorem divCells_eq_ok {W : Nat} {a b q : Int} :
    divCells W a b = .ok q ↔ b ≠ 0 ∧ ¬ (a = intMin W ∧ b = -1) ∧ q = a.tdiv b := by
  unfold divCells
  rw [tdiv_eq_tdiv]
  split_ifs with hb hmin
  · exact ⟨nofun, fun h => absurd hb h.1⟩
  · exact ⟨nofun, fun h => absurd hmin h.2.1⟩
  · rw [Except.ok.injEq, eq_comm]
    exact ⟨fun h => ⟨hb, hmin, h⟩, fun h => h.2.2⟩

/-- Settles O33: the common form with `divCells`, which has a quotient, a zero divisor or an overflow. -/
theorem divTruncatesTowardZero : Obligations.DivTruncatesTowardZero := by
  intro s l hs
  refine ⟨decode_opr l 4, fun hsp hpc hb hmin => ?completes, traps_of_binary_full hs rfl, fun hsp hb => ?zero,
    fun hsp ha hb => ?overflow, fun hsp hpc hb hmin => ?pc⟩
  case completes => exact completesBinary_of_ok hs rfl hsp hpc (divCells_eq_ok.mpr ⟨hb, hmin, rfl⟩)
  case zero => exact traps_of_binary_error (t := divideByZero) hs rfl hsp (by rw [hb, divCells_zero])
  case overflow => exact traps_of_binary_error (t := divideOverflow) hs rfl hsp (by rw [ha, hb, divCells_overflow])
  case pc => exact traps_of_binary_pc hs rfl hsp hpc (divCells_eq_ok.mpr ⟨hb, hmin, rfl⟩)

/-- Settles O34: `r` is the remainder of the same truncating division. -/
theorem divisionLawHolds : Obligations.DivisionLawHolds := by
  intro W a b q _ ha _ h
  obtain ⟨hb, -, hq⟩ := divCells_eq_ok.mp h
  refine ⟨isCell_of_divCells ha h, a.tmod b, ?law, ?smaller, fun hr => ?positive, fun hr => ?negative⟩
  case law => rw [hq, Int.tdiv_mul_add_tmod]
  case smaller =>
    rw [Int.abs_eq_natAbs, Int.abs_eq_natAbs, Int.natAbs_tmod]
    exact_mod_cast Nat.mod_lt _ (Int.natAbs_pos.mpr hb)
  case positive =>
    by_contra ha0
    have := Int.tmod_nonneg b (a := -a) (by omega)
    rw [Int.neg_tmod] at this
    omega
  case negative =>
    by_contra ha0
    have := Int.tmod_nonneg b (a := a) (by omega)
    omega

/-! ## The comparisons -/

theorem truth_decide (p : Prop) [Decidable p] : truth (decide p) = if p then 1 else 0 := by
  simp only [truth, decide_eq_true_eq]

/-- Settles O35: the common form with six comparisons, each leaving the truth value of its relation. -/
theorem comparisonsLeaveZeroOrOne : Obligations.ComparisonsLeaveZeroOrOne := by
  intro s l hs
  refine ⟨decode_opr l 5, decode_opr l 6, decode_opr l 7, decode_opr l 8, decode_opr l 9, decode_opr l 10,
    fun hsp hpc => ?completes, fun i hi => ?faults⟩
  case completes =>
    refine ⟨?_, ?_, ?_, ?_, ?_, ?_⟩ <;>
      exact completesBinary_of_ok hs rfl hsp hpc (congrArg Except.ok (truth_decide _))
  case faults =>
    simp only [List.mem_cons, List.not_mem_nil, or_false] at hi
    rcases hi with rfl | rfl | rfl | rfl | rfl | rfl <;> exact traps_of_total_binary hs rfl

/-! ## The reserved modifiers -/

/-- An instruction whose execute phase only emits completes with that event, its record and no other effect. -/
theorem completes_of_emit {i : Instr} {s : State} {name : TraceName} {e : Event} (hs : s.Fetched)
    (h : exec i s = finish name s (.ok (s.emit e))) (hpc : 0 ≤ s.pc) :
    ∃ t, exec i s = .next t ∧ SameCells s t ∧ t.pc = s.pc ∧ t.bp = s.bp ∧ t.sp = s.sp ∧ t.inpos = s.inpos ∧
      Undisturbed s t ∧ Emits s t name [e] := by
  obtain ⟨_, _, _, hbp, hsp, ⟨_, hpc1⟩, _, _, _⟩ := hs
  have hpc' : s.pc ≤ s.params.N - 1 := by omega
  have hcheck : checkRegisters (s.emit e) = none := checkRegisters_eq_none.mpr ⟨⟨hpc, hpc'⟩, hbp, hsp⟩
  exact ⟨_, exec_of_finish_ok h hcheck, fun _ => rfl, rfl, rfl, rfl, rfl, ⟨rfl, rfl, rfl, rfl, rfl, rfl⟩, emits_commit rfl⟩

/-- Settles O36: the reserved modifiers decode to the two instructions whose execute phase only emits. -/
theorem reservedModifiersOnlyReport : Obligations.ReservedModifiersOnlyReport := by
  intro s l m hs
  refine ⟨fun hm => ?opr, fun hm => ?sys, completes_of_emit hs rfl, completes_of_emit hs rfl,
    fun hpc => ⟨traps_of_pc_neg_one rfl hpc, traps_of_pc_neg_one rfl hpc⟩⟩
  case opr => rw [decode_opr, decodeOpr_reserved hm]
  case sys => rw [decode_sys, decodeSys_reserved hm]

end Machine
end Sys2Proof
end

section
/-! PROOFS. The static-link walk, LOD and STO (spec/42_load_store.md R110 to R112). -/

namespace Sys2Proof
namespace Machine

/-! ## The static-link walk -/

/-- A walk along `k` data cells that hold the links of a chain goes on from the chain's last address. -/
theorem walk_chain {s : State} {chain : Nat → Int} {k : Nat}
    (hchain : ∀ j, j < k → 0 ≤ chain j ∧ chain j ≤ s.params.stackTop ∧ s.mem.read (chain j).toNat = chain (j + 1))
    (more : Nat) : walk s (k + more) (chain 0) = walk s more (chain k) := by
  induction k generalizing more with
  | zero => rw [Nat.zero_add]
  | succ k ih =>
    obtain ⟨h0, h1, hlink⟩ := hchain k k.lt_succ_self
    calc walk s (k + 1 + more) (chain 0)
        = walk s (k + (more + 1)) (chain 0) := by rw [Nat.add_right_comm, Nat.add_assoc]
      _ = walk s (more + 1) (chain k) := ih (fun j hj => hchain j (Nat.lt_succ_of_lt hj)) (more + 1)
      _ = walk s more (chain (k + 1)) := by rw [walk_step h0 h1, hlink]

theorem walk_outside {s : State} {k : Nat} {a : Int} (h : a < 0 ∨ s.params.stackTop < a) :
    walk s (k + 1) a = .error (addressFault .dataRead a) := by
  rw [walk, dataRead_outside h]

/-- Settles O37: a walk of `k` links and then of any further ones is first the chain, then the steps from its last address. -/
theorem baseWalksTheStaticChain : Obligations.BaseWalksTheStaticChain := by
  refine ⟨fun s b => base_natural b 0 s, fun s chain k hchain => ⟨?along, fun hout extra => ?beyond⟩,
    fun s b l hl => base_negative hl⟩
  case along => rw [base_natural]; exact walk_chain hchain 0
  case beyond =>
    have hlevel : (k + 1 + extra : Int) = (k + (extra + 1) : Nat) := by omega
    rw [hlevel, base_natural, walk_chain hchain, walk_outside hout]
    rfl

/-! ## LOD -/

section
variable {s : State} {l m b : Int} {t : Trap}

theorem effectiveAddress_of_base_ok (hbase : base s.bp l s = .ok b) : effectiveAddress l m s = .ok (b - m) := by
  rw [effectiveAddress, hbase, ok_bind]

theorem effectiveAddress_of_base_error (hbase : base s.bp l s = .error t) : effectiveAddress l m s = .error t := by
  rw [effectiveAddress, hbase, error_bind]

theorem executePhase_lod_ok (hbase : base s.bp l s = .ok b) (hea0 : 0 ≤ b - m) (hea1 : b - m ≤ s.params.stackTop)
    (hsp : 0 < s.sp) (htop : s.sp ≤ s.params.stackTop) :
    executePhase (.lod l m) s = .ok (pushedState (s.mem.read (b - m).toNat) s) := by
  rw [executePhase, effectiveAddress_of_base_ok hbase, ok_bind, dataRead_inside hea0 hea1, ok_bind,
    dataWrite_inside (by omega) (by omega), ok_bind, pushedState]

theorem executePhase_lod_full (hbase : base s.bp l s = .ok b) (hea0 : 0 ≤ b - m) (hea1 : b - m ≤ s.params.stackTop)
    (hsp : s.sp = 0) : executePhase (.lod l m) s = .error (addressFault .dataWrite (-1)) := by
  rw [executePhase, effectiveAddress_of_base_ok hbase, ok_bind, dataRead_inside hea0 hea1, ok_bind,
    dataWrite_outside (by omega), error_bind, hsp, zero_sub]

theorem executePhase_lod_outside (hbase : base s.bp l s = .ok b) (hea : b - m < 0 ∨ s.params.stackTop < b - m) :
    executePhase (.lod l m) s = .error (addressFault .dataRead (b - m)) := by
  rw [executePhase, effectiveAddress_of_base_ok hbase, ok_bind, dataRead_outside hea, error_bind]

theorem executePhase_lod_base (hbase : base s.bp l s = .error t) : executePhase (.lod l m) s = .error t := by
  rw [executePhase, effectiveAddress_of_base_error hbase, error_bind]

end

/-- Settles O38: `base`, the read and the push can each fail, in this order; a completed push can fail the check only by its
PC. -/
theorem lodPushesTheAddressedCell : Obligations.LodPushesTheAddressedCell := by
  intro s l m ⟨_, hwf, _, ⟨hbp0, hbp1⟩, ⟨_, hsp1⟩, ⟨_, hpc1⟩, _, _, _⟩
  have hread : ¬ ReadFails (.lod l m) s := fun ⟨⟨_, h⟩, _⟩ => nomatch h
  refine ⟨decode_lod l m, fun b hbase hea0 hea1 => ⟨fun hsp hpc => ?completes, fun hsp => ?full, fun hsp hpc => ?pc⟩,
    fun b hbase hea => ?outside, fun tr hbase => ?base⟩
  case completes =>
    have hcheck : checkRegisters (pushedState (s.mem.read (b - m).toNat) s) = none := by
      simp only [checkRegisters_eq_none, pushedState_pc, pushedState_bp, pushedState_sp, pushedState_params]
      omega
    exact ⟨_, exec_of_checkRegisters_none hread (executePhase_lod_ok hbase hea0 hea1 hsp hsp1) hcheck,
      pushedState_oneCell hwf hsp, rfl, rfl, rfl, rfl, ⟨rfl, rfl, rfl, rfl, rfl, rfl⟩, emits_commit (List.append_nil _).symm⟩
  case full => exact traps_of_executePhase_error hread (executePhase_lod_full hbase hea0 hea1 hsp)
  case pc =>
    exact traps_of_checkRegisters hread (executePhase_lod_ok hbase hea0 hea1 hsp hsp1) (checkRegisters_pc_neg_one hpc)
  case outside => exact traps_of_executePhase_error hread (executePhase_lod_outside hbase hea)
  case base => exact traps_of_executePhase_error hread (executePhase_lod_base hbase)

/-! ## STO -/

/-- The state with the top popped into the cell `a`: stored there, and SP one higher (R112). -/
def storedState (a : Int) (s : State) : State := (s.setMem (s.mem.write a.toNat s.top)).setSp (s.sp + 1)

section
variable {s : State} {l m a b : Int} {t : Trap}

@[simp] theorem storedState_params : (storedState a s).params = s.params := rfl
@[simp] theorem storedState_pc : (storedState a s).pc = s.pc := rfl
@[simp] theorem storedState_bp : (storedState a s).bp = s.bp := rfl
@[simp] theorem storedState_sp : (storedState a s).sp = s.sp + 1 := rfl

theorem storedState_oneCell (hwf : s.mem.wf) (ha : 0 ≤ a) : OneCell s (storedState a s) a s.top :=
  Memory.read_write_toNat hwf ha s.top

theorem executePhase_sto_ok (hbase : base s.bp l s = .ok b) (hsp0 : 0 ≤ s.sp) (hsp1 : s.sp ≤ s.params.stackTop)
    (hea0 : 0 ≤ b - m) (hea1 : b - m ≤ s.params.stackTop) :
    executePhase (.sto l m) s = .ok (storedState (b - m) s) := by
  rw [executePhase, effectiveAddress_of_base_ok hbase, ok_bind, dataRead_top hsp0 hsp1, ok_bind,
    dataWrite_inside hea0 hea1, ok_bind, storedState]

theorem executePhase_sto_outside (hbase : base s.bp l s = .ok b) (hsp0 : 0 ≤ s.sp) (hsp1 : s.sp ≤ s.params.stackTop)
    (hea : b - m < 0 ∨ s.params.stackTop < b - m) :
    executePhase (.sto l m) s = .error (addressFault .dataWrite (b - m)) := by
  rw [executePhase, effectiveAddress_of_base_ok hbase, ok_bind, dataRead_top hsp0 hsp1, ok_bind,
    dataWrite_outside hea, error_bind]

theorem executePhase_sto_base (hbase : base s.bp l s = .error t) : executePhase (.sto l m) s = .error t := by
  rw [executePhase, effectiveAddress_of_base_error hbase, error_bind]

end

/-- Settles O39: the read of the top cannot fail; after `base` and the store, the check phase finds PC or the new SP. -/
theorem stoStoresTheTopAndPops : Obligations.StoStoresTheTopAndPops := by
  intro s l m ⟨_, hwf, _, hbp, ⟨hsp0, hsp1⟩, ⟨_, hpc1⟩, _, _, _⟩
  have hread : ¬ ReadFails (.sto l m) s := fun ⟨⟨_, h⟩, _⟩ => nomatch h
  have hpc_in (hpc : 0 ≤ s.pc) : 0 ≤ s.pc ∧ s.pc ≤ s.params.N - 1 := by omega
  refine ⟨decode_sto l m, fun b hbase hea0 hea1 => ?stored, fun b hbase hea => ?outside, fun tr hbase => ?base⟩
  case stored =>
    have hphase : executePhase (.sto l m) s = .ok (storedState (b - m) s) := executePhase_sto_ok hbase hsp0 hsp1 hea0 hea1
    refine ⟨fun hsp hpc => ?completes, fun hsp hpc => ?sp, fun hpc => ?pc⟩
    case completes =>
      have hsp_in : 0 ≤ s.sp + 1 ∧ s.sp + 1 ≤ s.params.stackTop := by omega
      have hcheck : checkRegisters (storedState (b - m) s) = none :=
        checkRegisters_eq_none.mpr ⟨hpc_in hpc, hbp, hsp_in⟩
      exact ⟨_, exec_of_checkRegisters_none hread hphase hcheck, storedState_oneCell hwf hea0, rfl, rfl, rfl, rfl,
        ⟨rfl, rfl, rfl, rfl, rfl, rfl⟩, emits_commit (List.append_nil _).symm⟩
    case sp =>
      have hcheck : checkRegisters (storedState (b - m) s) = some (addressFault .regSP (s.params.stackTop + 1)) := by
        have hout : s.params.stackTop < s.sp + 1 := by omega
        rw [← hsp]
        exact checkRegisters_sp (s := storedState (b - m) s) (hpc_in hpc) hbp (.inr hout)
      exact traps_of_checkRegisters hread hphase hcheck
    case pc => exact traps_of_checkRegisters hread hphase (checkRegisters_pc_neg_one hpc)
  case outside => exact traps_of_executePhase_error hread (executePhase_sto_outside hbase hsp0 hsp1 hea)
  case base => exact traps_of_executePhase_error hread (executePhase_sto_base hbase)

end Machine
end Sys2Proof
end

section
/-! PROOFS. RTN, JMP and JPC, which move registers and change no cell, the return that undoes a CAL, and the jump to itself
(spec/43_control.md R121 to R125; spec/60_exceptions.md R184). -/

namespace Sys2Proof
namespace Machine

/-! ## An execute phase that sets the registers only -/

/-- The state with the three registers set and everything else kept. -/
def State.withRegisters (s : State) (pc bp sp : Int) : State := ((s.setSp sp).setBp bp).setPc pc

section
variable {i : Instr} {s u : State} {t : Trap} {name : TraceName} {pc bp sp : Int}

theorem traps_of_finish_check (h : exec i s = finish name s (.ok u)) (hcheck : checkRegisters u = some t) :
    Traps i s t.cause t.info :=
  ⟨_, h.trans (finish_check hcheck), halts_raise s t⟩

theorem completes_of_registers (h : exec i s = finish name s (.ok (s.withRegisters pc bp sp)))
    (hpc : 0 ≤ pc ∧ pc ≤ s.params.N - 1) (hbp : 0 ≤ bp ∧ bp ≤ s.params.stackTop) (hsp : 0 ≤ sp ∧ sp ≤ s.params.stackTop) :
    ∃ t, exec i s = .next t ∧ SameCells s t ∧ t.pc = pc ∧ t.bp = bp ∧ t.sp = sp ∧ t.inpos = s.inpos ∧
      Undisturbed s t ∧ Emits s t name [] :=
  ⟨_, exec_of_finish_ok h (checkRegisters_eq_none.mpr ⟨hpc, hbp, hsp⟩), fun _ => rfl, rfl, rfl, rfl, rfl,
    ⟨rfl, rfl, rfl, rfl, rfl, rfl⟩, emits_commit (List.append_nil _).symm⟩

theorem traps_of_registers_pc (h : exec i s = finish name s (.ok (s.withRegisters pc bp sp)))
    (hpc : pc < 0 ∨ s.params.N - 1 < pc) : Traps i s .addressFault (.address .regPC pc) :=
  traps_of_finish_check h (checkRegisters_pc (s := s.withRegisters pc bp sp) hpc)

theorem traps_of_registers_bp (h : exec i s = finish name s (.ok (s.withRegisters pc bp sp)))
    (hpc : 0 ≤ pc ∧ pc ≤ s.params.N - 1) (hbp : bp < 0 ∨ s.params.stackTop < bp) :
    Traps i s .addressFault (.address .regBP bp) :=
  traps_of_finish_check h (checkRegisters_bp (s := s.withRegisters pc bp sp) hpc hbp)

theorem traps_of_registers_sp (h : exec i s = finish name s (.ok (s.withRegisters pc bp sp)))
    (hpc : 0 ≤ pc ∧ pc ≤ s.params.N - 1) (hbp : 0 ≤ bp ∧ bp ≤ s.params.stackTop)
    (hsp : sp < 0 ∨ s.params.stackTop < sp) : Traps i s .addressFault (.address .regSP sp) :=
  traps_of_finish_check h (checkRegisters_sp (s := s.withRegisters pc bp sp) hpc hbp hsp)

end

/-! ## RTN -/

/-- The dynamic link of the current record (R121). -/
def State.dynamicLink (s : State) : Int := s.mem.read (s.bp - 1).toNat

/-- The return address of the current record (R121). -/
def State.returnAddress (s : State) : Int := s.mem.read (s.bp - 2).toNat

section
variable {s : State} {l : Int}

theorem executePhase_rtn_ok (h2 : 2 ≤ s.bp) (htop : s.bp ≤ s.params.stackTop) :
    executePhase (.rtn l) s = .ok (s.withRegisters s.returnAddress s.dynamicLink (s.bp + 1)) := by
  rw [executePhase, show s.bp + 1 - 2 = s.bp - 1 by omega, show s.bp + 1 - 3 = s.bp - 2 by omega,
    dataRead_inside (by omega) (by omega), ok_bind, dataRead_inside (by omega) (by omega), ok_bind]
  rfl

/-- The record's second or third cell is the one below address 0. -/
theorem executePhase_rtn_low (h0 : 0 ≤ s.bp) (h1 : s.bp ≤ 1) (htop : s.bp ≤ s.params.stackTop) :
    executePhase (.rtn l) s = .error (addressFault .dataRead (-1)) := by
  obtain h | h : s.bp = 0 ∨ s.bp = 1 := by omega
  · rw [executePhase, dataRead_outside (by omega), error_bind, h]
    rfl
  · rw [executePhase, dataRead_inside (by omega) (by omega), ok_bind, dataRead_outside (by omega), error_bind, h]
    rfl

theorem exec_rtn (h2 : 2 ≤ s.bp) (htop : s.bp ≤ s.params.stackTop) :
    exec (.rtn l) s = finish .rtn s (.ok (s.withRegisters s.returnAddress s.dynamicLink (s.bp + 1))) :=
  congrArg (finish .rtn s) (executePhase_rtn_ok (l := l) h2 htop)

end

/-- Settles O41: the two reads fail only for BP below 2; after them the check phase finds PC, BP or SP. -/
theorem rtnRestoresTheCaller : Obligations.RtnRestoresTheCaller := by
  intro s l ⟨_, _, _, ⟨hbp0, hbp1⟩, _, _, _, _, _⟩
  refine ⟨decode_opr l 0, fun h2 hpc hbp htop => ?completes, fun h1 => ?low, fun h2 hpc => ?pc, fun h2 hpc hbp => ?bp,
    fun h2 hpc hbp htop => ?sp⟩
  case completes =>
    obtain ⟨t, ht, hcells, hpc', hbp', hsp', hrest⟩ := completes_of_registers (exec_rtn h2 hbp1) hpc hbp (by omega)
    exact ⟨t, ht, hcells, hsp', hbp', hpc', hrest⟩
  case low =>
    have hexec : exec (.rtn l) s = finish .rtn s (.error (addressFault .dataRead (-1))) :=
      congrArg (finish .rtn s) (executePhase_rtn_low (l := l) hbp0 h1 hbp1)
    exact traps_of_finish_error hexec
  case pc => exact traps_of_registers_pc (exec_rtn h2 hbp1) (by omega)
  case bp => exact traps_of_registers_bp (exec_rtn h2 hbp1) hpc (by omega)
  case sp => exact htop ▸ traps_of_registers_sp (exec_rtn h2 hbp1) hpc hbp (by omega)

/-! ## JMP -/

/-- Settles O42: the execute phase sets PC and cannot fail, so the target alone decides. -/
theorem jmpGoesToItsTarget : Obligations.JmpGoesToItsTarget := by
  intro s l m ⟨_, _, _, hbp, hsp, _, _, _, _⟩
  have hexec : exec (.jmp l m) s = finish .jmp s (.ok (s.withRegisters (target m s) s.bp s.sp)) := rfl
  refine ⟨decode_jmp l m, fun hm0 hm1 => ?completes, fun hm => ?pc⟩
  case completes => exact completes_of_registers hexec (by omega) hbp hsp
  case pc => exact traps_of_registers_pc hexec (by omega)

/-! ## JPC -/

/-- Where JPC goes on: at its target if the popped cell is 0, and at the next instruction otherwise (R123). -/
def branchAddress (m : Int) (s : State) : Int := if s.top = 0 then (s.params.N - 1) - m else s.pc

theorem executePhase_jpc_ok {s : State} {l m : Int} (h0 : 0 ≤ s.sp) (htop : s.sp ≤ s.params.stackTop) :
    executePhase (.jpc l m) s = .ok (s.withRegisters (branchAddress m s) s.bp (s.sp + 1)) := by
  rw [executePhase, dataRead_top h0 htop, ok_bind, branchAddress, branchTaken]
  by_cases h : s.top = 0
  · simp only [h, decide_true, if_true]
    rfl
  · simp only [h, decide_false, if_false]
    rfl

/-- Settles O43: the read of the top cannot fail, so the new PC and then the new SP decide. -/
theorem jpcPopsAndBranchesOnZero : Obligations.JpcPopsAndBranchesOnZero := by
  intro s l m ⟨_, _, _, hbp, ⟨hsp0, hsp1⟩, _, _, _, _⟩
  have hexec : exec (.jpc l m) s = finish .jpc s (.ok (s.withRegisters (branchAddress m s) s.bp (s.sp + 1))) :=
    congrArg (finish .jpc s) (executePhase_jpc_ok (l := l) hsp0 hsp1)
  refine ⟨decode_jpc l m, fun hsp hpc0 hpc1 => ?completes, traps_of_registers_pc hexec, fun hsp hpc0 hpc1 => ?sp⟩
  case completes =>
    obtain ⟨t, ht, hcells, hpc', hbp', hsp', hrest⟩ := completes_of_registers hexec ⟨hpc0, hpc1⟩ hbp (by omega)
    exact ⟨t, ht, hcells, hpc', hsp', hbp', hrest⟩
  case sp => exact hsp ▸ traps_of_registers_sp hexec ⟨hpc0, hpc1⟩ hbp (by omega)

/-! ## A CAL and the matching RTN -/

theorem Traps.not_running {i : Instr} {s t : State} {c : Cause} {info : FaultInfo} (h : Traps i s c info)
    (ht : exec i s = .next t) : t.run ≠ .running := by
  obtain ⟨u, hu, hrun, -⟩ := h
  obtain rfl := Host.Outcome.next.inj (ht.symm.trans hu)
  simp [hrun]

/-- A CAL that does not fault has room for its record, and saves BP and PC in it (R120). -/
theorem cal_saves {s called : State} {l m : Int} (hs : s.Fetched) (h : exec (.cal l m) s = .next called)
    (hrun : called.run = .running) :
    3 ≤ s.sp ∧ called.mem.read (s.sp - 2).toNat = s.bp ∧ called.mem.read (s.sp - 3).toNat = s.pc := by
  obtain ⟨-, hbase, hfault⟩ := calBuildsTheRecordAndJumps s l m hs
  cases hb : base s.bp l s with
  | error tr => exact absurd hrun ((hfault tr hb).not_running h)
  | ok sl =>
    obtain ⟨hcompletes, hlow, htarget⟩ := hbase sl hb
    have hsp : 3 ≤ s.sp := by
      by_contra hlt
      exact (hlow (by omega)).not_running h hrun
    have hm : 0 ≤ m ∧ m ≤ s.params.N - 1 := by
      by_contra hout
      exact (htarget hsp (by omega)).not_running h hrun
    obtain ⟨t, ht, hread, -⟩ := hcompletes hsp hm.1 hm.2
    obtain rfl := Host.Outcome.next.inj (h.symm.trans ht)
    refine ⟨hsp, ?_, ?_⟩
    · rw [hread, if_neg (by omega), if_pos (by omega)]
    · rw [hread, if_neg (by omega), if_neg (by omega), if_pos (by omega)]

/-- Settles O44: what the CAL saved is in range, so the RTN completes and takes it back. -/
theorem calThenRtnRestoresTheRegisters : Obligations.CalThenRtnRestoresTheRegisters := by
  intro s called t l m l' hs hpc0 hcal hcalled ht hparams hbp hlink hreturn
  obtain ⟨hsp, hsavedBp, hsavedPc⟩ := cal_saves hs hcal hcalled
  obtain ⟨_, _, _, hsbp, ⟨_, hsp1⟩, ⟨_, hpc1⟩, _, _, _⟩ := hs
  have hdynamic : t.dynamicLink = s.bp := by
    rw [State.dynamicLink, hbp, sub_sub]
    exact hlink.trans hsavedBp
  have hreturned : t.returnAddress = s.pc := by
    rw [State.returnAddress, hbp, sub_sub]
    exact hreturn.trans hsavedPc
  have hexec : exec (.rtn l') t = finish .rtn t (.ok (t.withRegisters s.pc s.bp s.sp)) := by
    rw [exec_rtn (by omega) (by rw [hparams]; omega), hdynamic, hreturned, hbp, sub_add_cancel]
  obtain ⟨u, hu, -, hupc, hubp, husp, -, ⟨-, hurun, -⟩, -⟩ :=
    completes_of_registers hexec (by rw [hparams]; omega) (hparams ▸ hsbp) (by rw [hparams]; omega)
  obtain ⟨_, _, _, _, _, _, _, htrun, _⟩ := ht
  exact ⟨u, hu, hurun.trans htrun, hupc, hubp, husp⟩

/-! ## A JMP to its own address -/

/-- The trace record of a JMP to its own address (R156). -/
def selfJumpEvent (l : Int) (s : State) : Event :=
  .trace (.record ⟨.jmp, l, (s.params.N - 1) - s.pc, s.pc, s.bp, s.sp, stackList s⟩)

/-- The state after a JMP to its own address: its cells in IR, and its record appended. -/
def selfJumpedState (l : Int) (s : State) : State := (s.setIr s.fetched).emit (selfJumpEvent l s)

/-- The state after `k` such jumps. -/
def afterSelfJumps (l : Int) (k : Nat) (s : State) : State :=
  { s with
    ir := if k = 0 then s.ir else s.fetched
    ports := s.ports ++ List.replicate k (selfJumpEvent l s) }

section
variable {s : State} {l : Int}

@[simp] theorem selfJumpedState_fetched : (selfJumpedState l s).fetched = s.fetched := rfl
@[simp] theorem selfJumpedState_ir : (selfJumpedState l s).ir = s.fetched := rfl
@[simp] theorem selfJumpedState_ports : (selfJumpedState l s).ports = s.ports ++ [selfJumpEvent l s] := rfl
@[simp] theorem selfJumpEvent_selfJumpedState : selfJumpEvent l (selfJumpedState l s) = selfJumpEvent l s := rfl

theorem afterSelfJumps_zero : afterSelfJumps l 0 s = s := by
  simp [afterSelfJumps]

theorem afterSelfJumps_succ (k : Nat) : afterSelfJumps l (k + 1) s = afterSelfJumps l k (selfJumpedState l s) := by
  rw [afterSelfJumps, afterSelfJumps, selfJumpedState_fetched, selfJumpedState_ir, selfJumpedState_ports,
    selfJumpEvent_selfJumpedState, ite_self, if_neg k.succ_ne_zero, List.replicate_succ, List.append_assoc]
  rfl

theorem step_selfJump (hinv : s.Inv) (hrun : s.run = .running) (h2 : 2 ≤ s.pc)
    (hfetched : s.fetched = ⟨7, l, (s.params.N - 1) - s.pc⟩) : step s = .next (selfJumpedState l s) := by
  obtain ⟨_, _, _, hbp, hsp, ⟨_, hpc1⟩, _⟩ := hinv
  have hdecode : decode s.fetched = .ok (.jmp l ((s.params.N - 1) - s.pc)) := by rw [hfetched, decode_jmp]
  have htarget : target ((s.params.N - 1) - s.pc) s.afterFetch = s.pc := sub_sub_cancel _ _
  have hexec : exec (.jmp l ((s.params.N - 1) - s.pc)) s.afterFetch =
      finish .jmp s.afterFetch (.ok (s.setIr s.fetched)) :=
    congrArg (fun pc => finish .jmp s.afterFetch (.ok (s.afterFetch.setPc pc))) htarget
  have hpc0 : 0 ≤ s.pc := by omega
  have hcheck : checkRegisters (s.setIr s.fetched) = none := checkRegisters_eq_none.mpr ⟨⟨hpc0, hpc1⟩, hbp, hsp⟩
  have hrecord : traceRecord .jmp s.fetched (s.setIr s.fetched) =
      ⟨.jmp, l, (s.params.N - 1) - s.pc, s.pc, s.bp, s.sp, stackList s⟩ := by
    rw [hfetched]
    rfl
  rw [step_of_decode_ok hrun h2 hpc1 hdecode, exec_of_finish_ok hexec hcheck, selfJumpedState, selfJumpEvent, ← hrecord]
  rfl

end

/-- Settles O45, by induction on the number of steps: a step changes IR and the ports alone, so the next one is the same. -/
theorem selfJumpNeverHalts : Obligations.SelfJumpNeverHalts := by
  intro s l k hinv hrun h2 hfetched
  change core.run k s = .next (afterSelfJumps l k s)
  induction k generalizing s with
  | zero => rw [run_zero, afterSelfJumps_zero]
  | succ k ih =>
    have hstep := step_selfJump hinv hrun h2 hfetched
    rw [run_succ_next hstep, afterSelfJumps_succ]
    exact ih _ (stepKeepsTheInvariant _ _ hinv hstep) hrun h2 hfetched

end Machine
end Sys2Proof
end

section
/-! PROOFS. The system calls SYS.PRINT, SYS.READ and SYS.HALT (spec/44_system.md R135 to R137), and that only SYS.HALT ends a run
normally (spec/60_exceptions.md R184). -/

namespace Sys2Proof
namespace Machine

/-! ## SYS.PRINT -/

/-- The state with the top popped and output (R135). -/
def printedState (s : State) : State := (s.emit (.output (.print s.top))).setSp (s.sp + 1)

theorem exec_sysPrint {s : State} {l : Int} (h0 : 0 ≤ s.sp) (htop : s.sp ≤ s.params.stackTop) :
    exec (.sysPrint l) s = finish .sys s (.ok (printedState s)) := by
  rw [exec, execSysPrint, dataRead_top h0 htop, ok_bind, printedState]

/-- Settles O46: the read of the top cannot fail, so PC and then the new SP decide. -/
theorem printPopsAndOutputs : Obligations.PrintPopsAndOutputs := by
  intro s l ⟨_, _, _, hbp, ⟨hsp0, hsp1⟩, ⟨_, hpc1⟩, _, _, _⟩
  have hexec : exec (.sysPrint l) s = finish .sys s (.ok (printedState s)) := exec_sysPrint hsp0 hsp1
  have hpc_in (hpc : 0 ≤ s.pc) : 0 ≤ s.pc ∧ s.pc ≤ s.params.N - 1 := by omega
  refine ⟨decode_sys l 1, fun hsp hpc => ?completes, fun hsp hpc => ?sp, fun hpc => traps_of_pc_neg_one hexec hpc⟩
  case completes =>
    have hsp_in : 0 ≤ s.sp + 1 ∧ s.sp + 1 ≤ s.params.stackTop := by omega
    have hcheck : checkRegisters (printedState s) = none := checkRegisters_eq_none.mpr ⟨hpc_in hpc, hbp, hsp_in⟩
    exact ⟨_, exec_of_finish_ok hexec hcheck, fun _ => rfl, rfl, rfl, rfl, rfl, ⟨rfl, rfl, rfl, rfl, rfl, rfl⟩,
      emits_commit rfl⟩
  case sp =>
    have hout : s.params.stackTop < s.sp + 1 := by omega
    exact hsp ▸ traps_of_finish_check hexec (checkRegisters_sp (s := printedState s) (hpc_in hpc) hbp (.inr hout))

/-! ## SYS.READ -/

section
variable {s : State} {l v : Int}

theorem nextInput_of_cell (hitem : s.params.input[s.inpos]? = some (.int v)) (hv : IsCell s.params.W v) :
    nextInput s = .int v := by
  simp only [nextInput, hitem, if_pos hv]

/-- A `Fail`, a number that fits no cell and the end of the input are one answer (R152). -/
theorem nextInput_of_no_cell (h : ∀ v, s.params.input[s.inpos]? = some (.int v) → ¬ IsCell s.params.W v) :
    nextInput s = .fail := by
  unfold nextInput
  split
  · next v hitem => exact if_neg (h v hitem)
  · rfl

/-- The state after a successful read: asked, and the item stored at the new SP (R136). -/
def readState (v : Int) (s : State) : State := (askedRead s).setMem (s.mem.write (s.sp - 1).toNat v)

theorem readState_oneCell (hwf : s.mem.wf) (hsp : 0 < s.sp) : OneCell s (readState v s) (s.sp - 1) v :=
  Memory.read_write_toNat hwf (by omega) v

theorem executePhase_sysRead_full (hsp : s.sp = 0) :
    executePhase (.sysRead l) s = .error (addressFault .dataWrite (-1)) := by
  rw [executePhase, if_pos (by omega), hsp, zero_sub]

theorem exec_sysRead (hsp : 0 < s.sp) (htop : s.sp ≤ s.params.stackTop) (hin : nextInput s = .int v) :
    exec (.sysRead l) s = finish .sys s (.ok (readState v s)) := by
  have hread : ¬ ReadFails (.sysRead l) s := fun ⟨_, _, hfail⟩ => nomatch hin.symm.trans hfail
  have hwrite : dataWrite (s.sp - 1) v (askedRead s) = .ok (readState v s) :=
    dataWrite_inside (s := askedRead s) (by omega) (Int.le_trans (by omega) htop)
  rw [exec_eq_finish hread, executePhase, if_neg (by omega), hin]
  exact congrArg (finish .sys s) hwrite

end

/-- Settles O47: room on the stack, then the item, then PC in the check phase decide. -/
theorem readPromptsAndPushes : Obligations.ReadPromptsAndPushes := by
  intro s l ⟨_, hwf, _, hbp, ⟨_, hsp1⟩, ⟨_, hpc1⟩, _, _, _⟩
  refine ⟨decode_sys l 2, fun v hitem hv hsp => ?read, fun hitem hsp => ?fails, fun hsp => ?full⟩
  case read =>
    have hexec : exec (.sysRead l) s = finish .sys s (.ok (readState v s)) :=
      exec_sysRead hsp hsp1 (nextInput_of_cell hitem hv)
    refine ⟨fun hpc => ?completes, fun hpc => traps_of_pc_neg_one hexec hpc⟩
    case completes =>
      have hpc_in : 0 ≤ s.pc ∧ s.pc ≤ s.params.N - 1 := by omega
      have hsp_in : 0 ≤ s.sp - 1 ∧ s.sp - 1 ≤ s.params.stackTop := by omega
      have hcheck : checkRegisters (readState v s) = none := checkRegisters_eq_none.mpr ⟨hpc_in, hbp, hsp_in⟩
      exact ⟨_, exec_of_finish_ok hexec hcheck, readState_oneCell hwf hsp, rfl, rfl, rfl, rfl,
        ⟨rfl, rfl, rfl, rfl, rfl, rfl⟩, emits_commit rfl⟩
  case fails =>
    exact ⟨_, exec_failedRead ⟨⟨l, rfl⟩, hsp, nextInput_of_no_cell hitem⟩, rfl, rfl, rfl, rfl, rfl, rfl, rfl, rfl, rfl,
      List.append_assoc ..⟩
  case full =>
    have hread : ¬ ReadFails (.sysRead l) s := fun ⟨_, hroom, _⟩ => by omega
    exact traps_of_executePhase_error hread (executePhase_sysRead_full hsp)

/-! ## SYS.HALT -/

/-- Settles O48: the execute phase only ends the run, so PC alone decides, and a PC of -1 discards the halt. -/
theorem haltEndsTheRun : Obligations.HaltEndsTheRun := by
  intro s l ⟨_, _, _, hbp, hsp, ⟨_, hpc1⟩, _, _, _⟩
  have hexec : exec (.sysHalt l) s = finish .sys s (.ok (s.endRun .halt)) := rfl
  refine ⟨decode_sys l 3, fun hpc => ?halts, fun hpc => traps_of_pc_neg_one hexec hpc⟩
  case halts =>
    have hpc_in : 0 ≤ s.pc ∧ s.pc ≤ s.params.N - 1 := by omega
    have hcheck : checkRegisters (s.endRun .halt) = none := checkRegisters_eq_none.mpr ⟨hpc_in, hbp, hsp⟩
    exact ⟨_, exec_of_finish_ok hexec hcheck, rfl, rfl, rfl, rfl, rfl, rfl, rfl, rfl,
      emits_commit (List.append_nil _).symm⟩

/-- Settles O16: every fault has a cause of its own, and of the completed instructions only SYS.HALT stops the machine. -/
theorem onlyTheHaltCallEndsNormally : Obligations.OnlyTheHaltCallEndsNormally := by
  intro s t _ hrun h ⟨hhalted, hcause⟩
  obtain ⟨-, ⟨a, rfl⟩ | rfl | ⟨i, hd, ⟨tr, rfl, htr⟩ | ⟨-, rfl⟩ | ⟨u, hu, -, rfl⟩⟩⟩ := step_outcome h
  case inl => cases hcause
  case inr.inl => cases hcause
  case inr.inr.inl =>
    obtain ⟨k, a, rfl, -⟩ | rfl | rfl | ⟨l, m, rfl, -⟩ := htr
    all_goals cases hcause
  case inr.inr.inr.inl => cases hcause
  case inr.inr.inr.inr =>
    obtain ⟨hkeeps, -⟩ | ⟨-, -, ⟨l, rfl⟩, -⟩ := hu.run
    · have hrunning : u.run = .running := hkeeps.trans hrun
      exact absurd (hrunning.symm.trans hhalted) (by decide)
    · exact ⟨l, hd⟩

end Machine
end Sys2Proof
end

section
/-! PROOFS. The check phase, and what one step puts on the ports (spec/50_interfaces.md R152 to R158, spec/60_exceptions.md R170,
R176). -/

namespace Sys2Proof
namespace Machine

/-! ## The check phase -/

/-- A register out of range halts the state before the execute phase, whatever that phase left. -/
theorem finish_halts {s u : State} {t : Trap} (h : checkRegisters u = some t) (name : TraceName) :
    ∃ v, finish name s (.ok u) = .next v ∧ Halts s v t.cause t.info :=
  ⟨_, finish_check h, halts_raise s t⟩

/-- Settles O13: the first register out of range is the fault of the check phase, and with none the phase commits. -/
theorem checkPhaseTestsPcThenBpThenSp : Obligations.CheckPhaseTestsPcThenBpThenSp := by
  intro name s u pcIn bpIn spIn
  refine ⟨fun hpc => ?pc, fun hpc hbp => ?bp, fun hpc hbp hsp => ?sp, fun hpc hbp hsp => ?commit⟩
  case pc => exact finish_halts (checkRegisters_pc (by omega)) name
  case bp => exact finish_halts (checkRegisters_bp hpc (by omega)) name
  case sp => exact finish_halts (checkRegisters_sp hpc hbp (by omega)) name
  case commit => exact finish_ok (checkRegisters_eq_none.mpr ⟨hpc, hbp, hsp⟩)

/-! ## The stack list of a trace record -/

theorem stackList_length (s : State) : (stackList s).length = (s.params.stackTop - s.sp + 1).toNat := by
  rw [stackList, List.length_map, List.length_range]

theorem stackList_getElem? {s : State} {k : Nat} {e : StackEntry} (h : (stackList s)[k]? = some e) :
    e = stackEntry s (s.params.stackTop - k) := by
  rw [stackList, List.getElem?_map, Option.map_eq_some_iff] at h
  obtain ⟨j, hj, rfl⟩ := h
  obtain ⟨_, rfl⟩ := List.getElem?_eq_some_iff.mp hj
  rw [List.getElem_range]

/-- Settles O29: entry `k` of the list is made of the cell `STACK_TOP - k`. -/
theorem stackListRunsFromStackTopToSp : Obligations.StackListRunsFromStackTopToSp := by
  intro s hsp
  refine ⟨?length, fun k e he => ?entry⟩
  case length => rw [stackList_length]; omega
  case entry =>
    obtain rfl := stackList_getElem? he
    exact ⟨rfl, decide_eq_true_iff⟩

/-! ## The events of a step -/

/-- An execute phase emits at most one event, and no trace record and no `FATAL` is among them. -/
theorem PhaseEvents.cases {i : Instr} {s : State} {first : List Event} (h : PhaseEvents i s first) :
    first = [] ∨ first = [.output .prompt] ∨ (∃ v, first = [.output (.print v)]) ∨
      (∃ m, first = [.diag (.badOpr m)]) ∨ ∃ m, first = [.diag (.badSys m)] := by
  cases i
  case sysPrint => exact .inr (.inr (.inl ⟨_, h⟩))
  case sysRead => exact .inr (.inl h)
  case oprInvalid => exact .inr (.inr (.inr (.inl ⟨_, h⟩)))
  case sysInvalid => exact .inr (.inr (.inr (.inr ⟨_, h⟩)))
  all_goals exact .inl h

/-- A completed execute phase leaves a running machine or a normal end. -/
theorem PhaseFrame.not_faulted {i : Instr} {s u : State} (h : PhaseFrame i s u) (hrun : s.run = .running) : ¬ u.Faulted := by
  rcases h.run with ⟨hur, -, -⟩ | ⟨-, huc, -⟩
  · simp [hur, hrun]
  · simp [huc]

/-- Settles O17: a fault adds its `FATAL`, a failed read the prompt before it, and a completed instruction its record after what
its execute phase emitted. -/
theorem eventsOfOneStep : Obligations.EventsOfOneStep := by
  intro s t h
  obtain ⟨hrun, ⟨a, rfl⟩ | rfl | ⟨i, -, ⟨tr, rfl, htr⟩ | ⟨-, rfl⟩ | ⟨u, hu, -, rfl⟩⟩⟩ := step_outcome h
  case inl => exact ⟨_, rfl, .inl ⟨_, _, rfl, nofun, ⟨rfl, nofun⟩, rfl, rfl⟩⟩
  case inr.inl => exact ⟨_, rfl, .inl ⟨_, _, rfl, nofun, ⟨rfl, nofun⟩, rfl, rfl⟩⟩
  case inr.inr.inl =>
    obtain ⟨hinput, hhalt⟩ : tr.cause ≠ .inputFault ∧ tr.cause ≠ .halt := by
      obtain ⟨k, a, rfl, -⟩ | rfl | rfl | ⟨l, m, rfl, -⟩ := htr <;> exact ⟨nofun, nofun⟩
    exact ⟨_, rfl, .inl ⟨_, _, rfl, hinput, ⟨rfl, hhalt⟩, rfl, rfl⟩⟩
  case inr.inr.inr.inl => exact ⟨_, List.append_assoc .., .inr (.inl ⟨rfl, ⟨rfl, nofun⟩, rfl, rfl⟩)⟩
  case inr.inr.inr.inr =>
    obtain ⟨first, hports, hfirst⟩ := hu.ports
    exact ⟨_, (emits_commit hports).trans (List.append_assoc ..),
      .inr (.inr ⟨first, traceName i, hu.not_faulted hrun, rfl, hfirst.cases⟩)⟩

/-! ## Who takes input and who outputs -/

/-- The output port's sequence is as it was when none of the new events is an output. -/
theorem output_eq_of_ports {s t : State} {events : List Event} (h : t.ports = s.ports ++ events)
    (hnone : ∀ e, .output e ∉ events) : t.output = s.output := by
  rw [State.output, h, List.filterMap_append, ← State.output, List.append_right_eq_self, List.filterMap_eq_nil_iff]
  intro x hx
  cases x with
  | output e => exact absurd hx (hnone e)
  | diag e => rfl
  | trace e => rfl

theorem output_raise (s : State) (t : Trap) : (s.raise t).output = s.output :=
  output_eq_of_ports (s.raise_ports t) (by simp)

theorem output_emit_trace (s : State) (e : TraceEvent) : (s.emit (.trace e)).output = s.output :=
  output_eq_of_ports (s.emit_ports (.trace e)) (by simp)

/-- Of the execute phases only those of SYS.PRINT and SYS.READ output (R153, R154). -/
theorem PhaseFrame.output {i : Instr} {s u : State} (h : PhaseFrame i s u) :
    u.output = s.output ∨ ∃ l, i = .sysRead l ∨ i = .sysPrint l := by
  obtain ⟨first, hports, hfirst⟩ := h.ports
  cases i
  case sysPrint l => exact .inr ⟨l, .inr rfl⟩
  case sysRead l => exact .inr ⟨l, .inl rfl⟩
  all_goals
    obtain rfl : first = _ := hfirst
    exact .inl (output_eq_of_ports hports (by simp))

/-- Settles O27: a fault other than a failed read only adds its `FATAL`, and a completed instruction has its frame. -/
theorem inputAndOutputOnlyThroughSystemCalls : Obligations.InputAndOutputOnlyThroughSystemCalls := by
  intro s t _ _ h
  obtain ⟨-, ⟨a, rfl⟩ | rfl | ⟨i, hd, ⟨tr, rfl, -⟩ | ⟨⟨⟨l, rfl⟩, -⟩, rfl⟩ | ⟨u, hu, -, rfl⟩⟩⟩ := step_outcome h
  case inl => exact ⟨absurd rfl, absurd (output_raise s _)⟩
  case inr.inl => exact ⟨absurd rfl, absurd (output_raise s.afterFetch _)⟩
  case inr.inr.inl => exact ⟨absurd rfl, absurd (output_raise s.afterFetch tr)⟩
  case inr.inr.inr.inl => exact ⟨fun _ => ⟨l, hd⟩, fun _ => ⟨l, .inl hd⟩⟩
  case inr.inr.inr.inr =>
    rw [output_emit_trace, State.emit_inpos]
    refine ⟨fun hin => ?input, fun hout => ?output⟩
    case input => simpa [hd] using hu.inpos.resolve_left hin
    case output => simpa [hd] using hu.output.resolve_left hout

end Machine
end Sys2Proof
end

section
/-! PROOFS. Fetch, step and run (spec/60_exceptions.md R170 to R172, R182, R184), what a fault leaves (R178, R179), and the negative
level (R174). -/

namespace Sys2Proof
namespace Machine

/-! ## Raising a fault -/

/-- Settles O12. -/
theorem raiseHaltsAndKeepsTheRest : Obligations.RaiseHaltsAndKeepsTheRest := halts_raise

/-- The fetch fault differs from `raise` in IR alone, of which `Halts` says nothing. -/
theorem halts_raiseAtFetch (s : State) (t : Trap) : Halts s (s.raiseAtFetch t) t.cause t.info := halts_raise s t

/-! ## The fetch phase and the step -/

/-- Settles O8: the first address below memory, read from PC 0 and PC 1 alike, is -1. -/
theorem fetchPhase : Obligations.FetchPhase := by
  intro s ⟨⟨hN, _⟩, _, _, _, _, ⟨_, hpc1⟩, _, hrunning, _⟩ hrun
  obtain ⟨hpc0, -⟩ := hrunning hrun
  refine ⟨fun h2 => fetch_inside h2 hpc1, fun h1 => ?low⟩
  case low =>
    have hfetch : fetch s = .error (addressFault .fetch (-1)) := fetch_low (by omega) hN
    exact ⟨_, step_of_fetch_error hrun hfetch, halts_raiseAtFetch s _, rfl⟩

/-- Settles O7. -/
theorem stepRunsTheDecodedInstruction : Obligations.StepRunsTheDecodedInstruction :=
  fun _ _ hrun h2 hN hd => step_of_decode_ok hrun h2 hN hd

theorem step_of_halted {s : State} (hrun : s.run = .halted) : step s = .fault .halted := by
  simp only [step, hrun]

/-- A fetch fault and an illegal opcode are next states, and every instruction has one. -/
theorem step_of_running {s : State} (hrun : s.run = .running) : ∃ t, step s = .next t := by
  obtain ⟨a, hf⟩ | ⟨-, h2, hN⟩ := fetch_cases s
  · exact ⟨_, step_of_fetch_error hrun hf⟩
  · cases hd : decode s.fetched with
    | error e => exact ⟨_, step_of_decode_error hrun h2 hN hd⟩
    | ok i => rw [step_of_decode_ok hrun h2 hN hd]; exact exec_next i s.afterFetch

/-- Settles O10. -/
theorem stepExistsExactlyWhileRunning : Obligations.StepExistsExactlyWhileRunning :=
  fun _ => ⟨step_of_halted, step_of_running⟩

/-! ## Runs -/

/-- Settles O11: a run of `k + 1` steps stops at once in a halted state, and else is one step and a run of `k`. -/
theorem runsEndOnlyByHalting : Obligations.RunsEndOnlyByHalting := by
  intro k
  induction k with
  | zero => exact fun s => .inl ⟨s, run_zero s⟩
  | succ k ih =>
    intro s
    cases hrun : s.run with
    | halted => exact .inr ⟨run_succ_fault (step_of_halted hrun) k, 0, s, k.succ_pos, run_zero s, hrun⟩
    | running =>
      obtain ⟨u, hstep⟩ := step_of_running hrun
      rw [run_succ_next hstep]
      refine (ih u).imp_right fun ⟨hfault, j, t, hj, hreach, hhalted⟩ => ?_
      exact ⟨hfault, j + 1, t, Nat.succ_lt_succ hj, (run_succ_next hstep j).trans hreach, hhalted⟩

/-! ## The halted state for each cause -/

/-- Only SYS.HALT completes in a halted state; it has changed no register and no cell, and emitted nothing. -/
theorem PhaseFrame.of_halted {i : Instr} {s u : State} (h : PhaseFrame i s u) (hrun : s.run = .running)
    (hhalted : u.run = .halted) : (∃ l, i = .sysHalt l) ∧ u.cause = .halt ∧ u.mem = s.mem ∧ u.pc = s.pc ∧ u.bp = s.bp ∧
      u.sp = s.sp ∧ u.inpos = s.inpos ∧ u.ports = s.ports := by
  obtain ⟨hkeeps, -⟩ | ⟨-, hcause, ⟨l, rfl⟩, hmem⟩ := h.run
  · rw [hkeeps, hrun] at hhalted
    cases hhalted
  · obtain ⟨first, hports, hnone⟩ := h.ports
    obtain rfl : first = [] := hnone
    exact ⟨⟨l, rfl⟩, hcause, hmem, by simpa using h.pc, by simpa using h.bp,
      h.sp.resolve_right fun hother => (hother l 0).2.2.1 rfl, by simpa using h.inpos, by simpa using hports⟩

/-- The level of a LOD, STO or CAL is the fetched one (R66). -/
theorem fetched_level {t : Triplet} {i : Instr} {l m : Int} (hd : decode t = .ok i)
    (hi : i = .lod l m ∨ i = .sto l m ∨ i = .cal l m) : t.l = l := by
  rw [← encode_of_decode hd]
  obtain rfl | rfl | rfl := hi <;> rfl

/-- Settles O14: by the ways a step ends, of which the completed instruction is SYS.HALT and the others raise one fault each. -/
theorem haltedStateForEachCause : Obligations.HaltedStateForEachCause := by
  intro s t _ hrun h hhalted
  obtain ⟨-, ⟨a, rfl⟩ | rfl | ⟨i, hd, ⟨tr, rfl, htr⟩ | ⟨-, rfl⟩ | ⟨u, hu, -, rfl⟩⟩⟩ := step_outcome h
  case inl => exact ⟨rfl, rfl, rfl, rfl, rfl, .fetch, a, rfl, rfl⟩
  case inr.inl => exact ⟨rfl, rfl, rfl, rfl, rfl, rfl, rfl⟩
  case inr.inr.inl =>
    obtain ⟨kind, a, rfl, hkind⟩ | rfl | rfl | ⟨l, m, rfl, -, hi⟩ := htr
    · exact ⟨rfl, rfl, rfl, rfl, rfl, kind, a, rfl, (if_neg hkind).symm⟩
    · exact ⟨rfl, rfl, rfl, rfl, rfl, rfl, rfl⟩
    · exact ⟨rfl, rfl, rfl, rfl, rfl, rfl, rfl⟩
    · obtain rfl := fetched_level hd hi
      exact ⟨rfl, rfl, rfl, rfl, rfl, rfl, rfl⟩
  case inr.inr.inr.inl => exact ⟨rfl, rfl, rfl, rfl, rfl, rfl, List.append_assoc ..⟩
  case inr.inr.inr.inr =>
    obtain ⟨⟨l, rfl⟩, hcause, hmem, hpc, hbp, hsp, hinpos, hports⟩ := hu.of_halted hrun hhalted
    refine ⟨hmem, hbp, ?_⟩
    rw [State.emit_cause, hcause]
    exact ⟨hpc, hsp, hinpos, congrArg (· ++ _) hports⟩

/-! ## The negative level -/

/-- `base` is the first access of the three instructions, and a negative level fails in it. -/
theorem executePhase_negative_level {i : Instr} {l m : Int} (hi : i = .lod l m ∨ i = .sto l m ∨ i = .cal l m) (hl : l < 0)
    (s : State) : executePhase i s = .error (illegalLevel l) := by
  have hbase : base s.bp l s = .error (illegalLevel l) := base_negative hl
  obtain rfl | rfl | rfl := hi
  · exact executePhase_lod_base hbase
  · exact executePhase_sto_base hbase
  · rw [executePhase, hbase, error_bind]

theorem traps_of_negative_level {i : Instr} {l m : Int} (hi : i = .lod l m ∨ i = .sto l m ∨ i = .cal l m) (hl : l < 0)
    (s : State) : Traps i s .illegalLevel (.level l) := by
  have hread : ¬ ReadFails i s := by
    rintro ⟨⟨_, rfl⟩, -⟩
    simp at hi
  exact traps_of_executePhase_error hread (executePhase_negative_level hi hl s)

/-- Of the ways an instruction ends, only a fault of its execute phase can leave ILLEGAL_LEVEL. -/
theorem negative_level_of_cause {i : Instr} {s t : State} (hs : s.cause ≠ .illegalLevel) (h : exec i s = .next t)
    (ht : t.cause = .illegalLevel) : ∃ l m, l < 0 ∧ (i = .lod l m ∨ i = .sto l m ∨ i = .cal l m) := by
  obtain ⟨tr, hnext, htr⟩ | ⟨-, hnext⟩ | ⟨u, hu, -, hnext⟩ := exec_cases h <;> obtain rfl := Host.Outcome.next.inj hnext
  case inl =>
    obtain herror | ⟨u, -, hcheck⟩ := htr
    · obtain ⟨k, a, rfl, -⟩ | rfl | rfl | ⟨l, m, hl, -, hi⟩ | ⟨rfl, -⟩ := executePhase_eq_error herror
      case inr.inr.inr.inl => exact ⟨l, m, hl, hi⟩
      all_goals cases ht
    · cases (checkRegisters_cause hcheck).symm.trans ht
  case inr.inl => cases ht
  case inr.inr =>
    obtain ⟨-, hkept, -⟩ | ⟨-, hhalt, -⟩ := (executePhase_frame hu).run
    · exact absurd (hkept.symm.trans ht) hs
    · cases hhalt.symm.trans ht

/-- Settles O15. -/
theorem negativeLevelIsIllegalOnLodStoCalOnly : Obligations.NegativeLevelIsIllegalOnLodStoCalOnly := by
  refine ⟨fun s l m hl => ?_, fun _ _ _ => negative_level_of_cause⟩
  exact ⟨traps_of_negative_level (m := m) (.inl rfl) hl s, traps_of_negative_level (m := m) (.inr (.inl rfl)) hl s,
    traps_of_negative_level (m := m) (.inr (.inr rfl)) hl s⟩

end Machine
end Sys2Proof
end
